-- ==== Sys2Proof/Word.lean ====
section
/-! DEFINITION. The widths of the codec's words (spec/00_scope.md R7, R11; spec/10_state.md R29).

The notation of R9 maps to Lean's own operations: `sint_N` is `BitVec.toInt`, `uint_N` is `BitVec.toNat`, `~_N` is `~~~`,
a logical right shift of an unsigned value is `>>>` on `Nat`, `a ++ b` on bit vectors puts `a` in the high bits. -/

namespace Sys2Proof

/-- A byte: the command byte (`CMD_W` = 8, R7) and each transferred byte. -/
abbrev Byte := BitVec 8

/-- A temperature-family register value: `REG_W` = 16 bits (R7). -/
abbrev Raw := BitVec 16

/-- A Celsius word: 32 bits, two's complement, 8 fraction bits (R11). Its value is `W.toInt / 256` °C, so `W.toInt` is
the temperature in units of 1/256 °C. -/
abbrev Celsius := BitVec 32

/-- A variant tag: `RES_W` = 2 bits (R7, R21). -/
abbrev Tag := BitVec 2

end Sys2Proof
end

