-- ==== Sys2Proof/Config.lean ====
section
/-! DEFINITION. The implementation parameters of spec/00_scope.md R7, fixed to the values the source gives
(spec/93_implementation_defined.md I1). Temperatures are in units of 1/256 °C, the weight of a Celsius word's bit 0.
Nothing here is a free value: the spec leaves no parameter open (spec/92_eei_decisions.md). -/

namespace Sys2Proof

/-- The two supported resolution variants (spec/10_state.md R21). -/
inductive Variant where
  | res9
  | res11
deriving DecidableEq, Repr

/-- The variant's resolution in bits: the v of R8. -/
def Variant.bits : Variant → Nat
  | .res9 => 9
  | .res11 => 11

/-- `SHIFT` (R7). -/
def Variant.shift : Variant → Nat
  | .res9 => 7
  | .res11 => 5

/-- `STEP` (R7), in units of 1/256 °C: 0.5 °C and 0.125 °C. -/
def Variant.stepUnits : Variant → Int
  | .res9 => 128
  | .res11 => 32

namespace Config

/-- `T_MIN` (R7), in °C. -/
def tMin : Int := -55

/-- `T_MAX` (R7), in °C. -/
def tMax : Int := 125

/-- `SENTINEL` (R7), in °C. -/
def sentinelDegrees : Int := -1000

/-- `cw(SENTINEL)`, as spec/10_state.md R24 writes it out. -/
def sentinel : Celsius := 0xFFFC1800

/-- `HALF_FLAG` (R7). -/
def halfFlag : Byte := 0x80

end Config
end Sys2Proof
end

