-- ==== Sys2Proof/Syntax.lean ====
section
/-! DEFINITION. Commands as syntax: the instructions (spec/30_encoding.md R62, spec/opcode_table.json), the raw fields of a
command byte (R61), the names of what makes a byte reserved (R66) and the assembler's lines (R68, R69). -/

namespace Sys2Proof

/-- One constructor per row of the opcode table. The operands of DECODE and ENCODE are ports, not fields of the command
byte (R64, R65), so they stand in the state. -/
inductive Instr where
  /-- INIT with its tag operand `R = CMD[4:3]` (R64): all four tags are legal in the command. -/
  | init (tag : Tag)
  /-- DECODE; its operands are `XOK`, `RXB0` and `RXB1` (R65). -/
  | decode
  /-- ENCODE; its operand is `DIN` (R65). -/
  | encode
deriving DecidableEq, Repr

/-- The three fields of a command byte (R61). -/
structure CommandFields where
  /-- `Z`, bits 7:5. -/
  z : BitVec 3
  /-- `R`, bits 4:3. -/
  r : Tag
  /-- `OP`, bits 2:0. -/
  op : BitVec 3
deriving DecidableEq, Repr

/-- Why a command byte is reserved: the three cases R66 lists. -/
inductive Reserved where
  /-- `OP` = 0b000 or `OP` ≥ 0b100. -/
  | opcode
  /-- `Z ≠ 0`. -/
  | zField
  /-- `R ≠ 0` with `OP` = 0b010 or 0b011. -/
  | rField
deriving DecidableEq, Repr

/-- One line of the assembler (R68), the pseudo-instruction `DECODE.FAIL` (R69) among them. -/
inductive AsmLine where
  | init (tag : Tag)
  | decode (b0 b1 : Byte)
  | encode (din : Celsius)
  | decodeFail
deriving DecidableEq, Repr

end Sys2Proof
end

