-- ==== Sys2Proof/WellFormed.lean ====
section
/-! DEFINITION. The checks on a command's fields (spec/30_encoding.md R61, R66): what a byte must satisfy to select a row of
the opcode table. An instruction is well-formed when its fields pass them; the types of `Instr`'s operands already hold
exactly the values its encoding admits, so every instruction is. -/

namespace Sys2Proof

namespace CommandFields

/-- `Z` must be 0b000 (R61). -/
def zOk (f : CommandFields) : Bool := f.z == 0#3

/-- `OP` must be INIT's, DECODE's or ENCODE's (R62). -/
def opOk (f : CommandFields) : Bool := f.op == 1#3 || f.op == 2#3 || f.op == 3#3

/-- `R` must be 0b00 in DECODE and in ENCODE (R61, R66). -/
def rOk (f : CommandFields) : Bool := !(f.op == 2#3 || f.op == 3#3) || f.r == 0#2

/-- The fields of a byte that is not reserved (R66). -/
def wellFormed (f : CommandFields) : Bool := f.zOk && f.opOk && f.rOk

end CommandFields

/-- The fields of an instruction's command byte (R61, R62). -/
def Instr.fields : Instr → CommandFields
  | .init tag => ⟨0#3, tag, 1#3⟩
  | .decode => ⟨0#3, 0#2, 2#3⟩
  | .encode => ⟨0#3, 0#2, 3#3⟩

/-- An instruction whose fields the encoding admits. -/
def Instr.wellFormed (i : Instr) : Bool := i.fields.wellFormed

end Sys2Proof
end

