-- ==== Sys2Proof/Decode.lean ====
section
/-! DEFINITION. Decoding a command byte (spec/30_encoding.md R61 to R67), total on all 256 bytes and refusing by name, and the
encoder beside it. The opcode table of R63 stands here too, with its match and mask columns. -/

namespace Sys2Proof

/-- The fields of a command byte: `Z` is bits 7:5, `R` bits 4:3, `OP` bits 2:0 (R61). -/
def fieldsOf (b : Byte) : CommandFields :=
  ⟨b.extractLsb' 5 3, b.extractLsb' 3 2, b.extractLsb' 0 3⟩

/-- The command byte with these fields (R61). -/
def packFields (f : CommandFields) : Byte := f.z ++ f.r ++ f.op

/-- The command that fields stand for (R62), or which case of R66 reserves them. -/
def decodeFields (f : CommandFields) : Except Reserved Instr :=
  if f.z ≠ 0#3 then .error .zField
  else if f.op = 1#3 then .ok (.init f.r)
  else if f.op = 2#3 then (if f.r = 0#2 then .ok .decode else .error .rField)
  else if f.op = 3#3 then (if f.r = 0#2 then .ok .encode else .error .rField)
  else .error .opcode

/-- The decoder: every byte is INIT with one of four tags, DECODE, ENCODE or reserved (R67). -/
def decodeCommand (b : Byte) : Except Reserved Instr := decodeFields (fieldsOf b)

/-- The encoder: an instruction's one command byte (R60, R63). -/
def encode (i : Instr) : Byte := packFields i.fields

/-- A row of the opcode table: its mnemonic, match and mask (R63). -/
structure OpcodeRow where
  mnemonic : String
  matchBits : Byte
  mask : Byte
deriving DecidableEq, Repr

/-- The table of R63. -/
def opcodeTable : List OpcodeRow :=
  [⟨"INIT", 0x01, 0xE7⟩, ⟨"DECODE", 0x02, 0xFF⟩, ⟨"ENCODE", 0x03, 0xFF⟩]

/-- "A byte b selects a row when `(b AND mask) = match`" (R63). -/
def OpcodeRow.selects (row : OpcodeRow) (b : Byte) : Bool := b &&& row.mask == row.matchBits

/-- An instruction's row in the opcode table. -/
def Instr.row : Instr → OpcodeRow
  | .init _ => ⟨"INIT", 0x01, 0xE7⟩
  | .decode => ⟨"DECODE", 0x02, 0xFF⟩
  | .encode => ⟨"ENCODE", 0x03, 0xFF⟩

/-- The command byte among a table word's bits: `nbits` bits of `w`, of which a command has eight (R60). -/
def tableByte (nbits w : Nat) : Byte := BitVec.ofNat 8 (w % 2 ^ nbits)

/-- The instruction the decoder reads from a table word. A command is exactly one byte (R60, R67), so a word of another
length is none. -/
def decodeTableWord (nbits w : Nat) : Option Instr :=
  if nbits = 8 then (decodeCommand (tableByte nbits w)).toOption else none

end Sys2Proof
end

