-- ==== Sys2Proof/Machine/State.lean ====
section
/-! DEFINITION. The state of the machine as plain data: the block's three registers (spec/10_state.md R20), the ports a step
reads and drives (R29), and the list of what host and transport do in the coming steps (the model's own, log 1). -/

namespace Sys2Proof.Machine

/-- The input ports (R29). A DECODE gets both bytes of one transfer and the success flag together (spec/20_memory.md R47). -/
structure InPorts where
  /-- `CMD`, the command byte. -/
  cmd : Byte
  /-- `DIN`, the Celsius word operand of ENCODE. -/
  din : Celsius
  /-- `RXB0`, the first byte the transport received. -/
  rxb0 : Byte
  /-- `RXB1`, the second byte the transport received. -/
  rxb1 : Byte
  /-- `XOK`, 1 if the transport's read succeeded. -/
  xok : Bool
deriving DecidableEq, Repr

/-- The status names (spec/60_exceptions.md R140). Their 2-bit codes are `Status.code` (Machine/Flags.lean). -/
inductive Status where
  | ok
  | invalidRange
  | unsupportedVariant
  | transportError
deriving DecidableEq, Repr

/-- What a command that is not refused answers: its status and, when ENCODE produced them, `TXB0` and `TXB1`
(R140; an output that a command does not produce has no value, spec/10_state.md R30). -/
structure Response where
  st : Status
  tx : Option (Byte × Byte)
deriving DecidableEq, Repr

/-- What the host puts on the ports in one step (spec/60_exceptions.md R156). -/
inductive HostAct where
  /-- It presents no command. -/
  | wait
  /-- It presents a command with its operand ports. -/
  | command (p : InPorts)
  /-- It presents a command before the command of the step before has completed, which it must not (R155). Whatever command it
  is, the refusal is `concurrentCommand`: DESIGN CHOICE (log 6), safe. -/
  | commandEarly (p : InPorts)
deriving DecidableEq, Repr

/-- One step of host and transport: what is presented, and whether the host reads `TEMP_O` in this step (R156, R176). -/
structure HostStep where
  act : HostAct
  readsTempO : Bool
deriving DecidableEq, Repr

/-- The block has no faults: "There is no trap, no saved state, no cause register, no vector and no change of mode" (R144).
Nobody raises one (log 9). -/
inductive Fault : Type
deriving DecidableEq, Repr

/-- The block's refusal type: "A model's refusal type has these four constructors and no others" (R148). It is the refusal type
of the block's meanings, of `blockStep`, `blockCore` and `run`. Each reason errs toward unprovable (R147), so each is safe. -/
inductive RefusalReason where
  /-- `CMD` selects no row of the opcode table (R66). Raised by `fetch`. Safe. -/
  | reservedCommand
  /-- DECODE with `INITD` = 0 (R106). Raised by `blockDecode`. Safe. -/
  | notInitialised
  /-- INIT with `INITD` = 1 (R134). Raised by `blockInit`. Safe. -/
  | alreadyInitialised
  /-- A command presented before the previous one has completed (R155). Raised by `fetch`. Safe. -/
  | concurrentCommand
deriving DecidableEq, Repr

/-- The refused outcomes of the host's interface alone: the block's own refusals, and beside them the interface's word for an
instruction without a meaning, which is no refusal of the block and which no `BlockOutcome` can hold (log 9). -/
inductive Refusal where
  /-- An instruction that has no meaning yet, by its mnemonic: raised by no arm of `exec` and by no meaning. Safe. -/
  | notModelled (mnemonic : String)
  /-- The block's refusal, for one of its four reasons (R148). Made by `present` alone. Safe. -/
  | reason (r : RefusalReason)
deriving DecidableEq, Repr

/-- The block's reason, if a refused outcome has one. -/
def Refusal.reason? : Refusal → Option RefusalReason
  | .notModelled _ => none
  | .reason r => some r

/-- The machine. The first three fields are the whole of the block's architectural state (R20); the other four are the
model's own. -/
structure State where
  /-- `RES`, the variant tag (R21, R22). -/
  res : Tag
  /-- `INITD`, the initialised flag (R23). -/
  initd : Bool
  /-- `TEMP`, the last temperature (R24). -/
  temp : Celsius
  /-- MODEL: the values last driven on the input ports (log 2). -/
  inp : InPorts
  /-- MODEL: what host and transport do in the coming steps, the next one first (log 1). -/
  inbox : List HostStep
  /-- MODEL: the response of the step just done; none when that step ran no command (log 3). -/
  resp : Option Response
  /-- MODEL: what the host read from `TEMP_O` in the step just done, if it read it (log 8). -/
  tempRead : Option Celsius
deriving DecidableEq, Repr

/-- The machine right after reset (spec/70_reset_and_hazards.md R170), waiting for the host's first command (R172). -/
def State.reset : State where
  res := 0#2
  initd := false
  temp := 0#32
  inp := ⟨0#8, 0#32, 0#8, 0#8, false⟩ -- DESIGN CHOICE (log 2), unsafe
  inbox := []                         -- DESIGN CHOICE (log 1), safe
  resp := none
  tempRead := none                    -- DESIGN CHOICE (log 8), safe

end Sys2Proof.Machine
end

