-- ==== Sys2Proof/Machine/Operands.lean ====
section
/-! DEFINITION. The operands of the commands and the arithmetic of the codec: byte assembly (spec/20_memory.md R44), the two decode
paths (spec/41_decode.md R101, R102), and the truncation of the threshold encode (spec/40_encode.md R81, R82). -/

namespace Sys2Proof.Machine

/-- The value of a Celsius word in °C (spec/00_scope.md R11). -/
def cwVal (W : Celsius) : Rat := (W.toInt : Rat) / 256

/-- `cw(q) = (256·q) mod 2^32`, for a multiple q of 1/256 (R11). Another q is the host's to convert; the floor here only
makes the function total (log 10). -/
def cw (q : Rat) : Celsius := BitVec.ofInt 32 (q * 256).floor

/-- The variant a tag selects (spec/10_state.md R21); 0b10 and 0b11 are unsupported. -/
def variantOf (tag : Tag) : Option Variant :=
  if tag = 0#2 then some .res9 else if tag = 1#2 then some .res11 else none

/-- `raw = RXB0 ++ RXB1`, big-endian (R44). -/
def rawOf (p : InPorts) : Raw := p.rxb0 ++ p.rxb1

/-- The non-negative path's count of steps: `uint_16(raw) >> SHIFT` (R101). -/
def countNonNegative (v : Variant) (raw : Raw) : Int := ((raw.toNat >>> v.shift : Nat) : Int)

/-- The negative path's count of steps: `-((uint_16(~_16 raw) >> SHIFT) + 1)` (R102; the inversion is over 16 bits). -/
def countNegative (v : Variant) (raw : Raw) : Int := -((((~~~raw).toNat >>> v.shift : Nat) : Int) + 1)

/-- The count n of DECODE's pseudocode (R100): the sign bit selects the path. -/
def decodeCount (v : Variant) (raw : Raw) : Int :=
  if raw.getLsbD 15 = false then countNonNegative v raw else countNegative v raw

/-- `(n * w) mod 2^32`, the Celsius word DECODE writes (R100). -/
def decodeTemp (v : Variant) (raw : Raw) : Celsius := BitVec.ofInt 32 (decodeCount v raw * v.stepUnits)

/-- ENCODE's operand in units of 1/256 °C: `X = sint_32(DIN)` (R80). -/
def dinUnits (p : InPorts) : Int := p.din.toInt

/-- The range check: −55 ≤ c ≤ 125, both bounds inclusive (R81). -/
def inRange (X : Int) : Bool := decide (Config.tMin * 256 ≤ X) && decide (X ≤ Config.tMax * 256)

/-- `ip = |X| div 256`, the magnitude of the integer part (R80). -/
def magnitudeDegrees (X : Int) : Nat := X.natAbs / 256

/-- `fr = |X| mod 256`, the fractional remainder in units of 1/256 °C (R80, R83). -/
def magnitudeFraction (X : Int) : Nat := X.natAbs % 256

/-- `t = trunc(c)`: the integer part, truncated toward zero (R80, R82). -/
def truncDegrees (X : Int) : Int := if X < 0 then -(magnitudeDegrees X : Int) else (magnitudeDegrees X : Int)

/-- `TXB0 = t mod 256`, an 8-bit two's-complement value (R82). -/
def highByte (X : Int) : Byte := BitVec.ofInt 8 (truncDegrees X)

end Sys2Proof.Machine
end

