-- ==== Sys2Proof/Machine/Flags.lean ====
section
/-! DEFINITION. The bits a command derives beside its result: ENCODE's half-degree flag byte (spec/40_encode.md R83) and the
2-bit status codes (spec/60_exceptions.md R140). The block stores no flag (spec/10_state.md R27). -/

namespace Sys2Proof.Machine

/-- `TXB1`: the half-degree flag, set when the fractional remainder of the magnitude is at least 0.5 °C (R83). -/
def lowByte (X : Int) : Byte := if 128 ≤ magnitudeFraction X then Config.halfFlag else 0#8

/-- The code of a status on `ST` (R140). -/
def Status.code : Status → BitVec 2
  | .ok => 0#2
  | .invalidRange => 1#2
  | .unsupportedVariant => 2#2
  | .transportError => 3#2

end Sys2Proof.Machine
end

