-- ==== Sys2Proof/Machine/Ops.lean ====
section
/-! DEFINITION. The named operations over the registers and the ports, and the fetch of the command the host presents. The block has
no memory (spec/20_memory.md R40) and takes no exception (spec/60_exceptions.md R144): the shared way a command fails is `raise`. -/

namespace Sys2Proof.Machine

/-- `RES <- v`. -/
def State.setRes (s : State) (v : Tag) : State := { s with res := v }

/-- `INITD <- v`. -/
def State.setInitd (s : State) (v : Bool) : State := { s with initd := v }

/-- `TEMP <- v`. -/
def State.setTemp (s : State) (v : Celsius) : State := { s with temp := v }

/-- Drive the input ports. -/
def State.setInp (s : State) (p : InPorts) : State := { s with inp := p }

/-- Give the response of a command (spec/60_exceptions.md R144). -/
def State.respond (s : State) (st : Status) (tx : Option (Byte × Byte)) : State := { s with resp := some ⟨st, tx⟩ }

/-- The port `TEMP_O`: the value of `TEMP`, at all times (spec/10_state.md R24). -/
def State.tempO (s : State) : Celsius := s.temp

/-- The port `ST`: no value when the step ran no command (R27, R140). -/
def State.stOut (s : State) : Option (BitVec 2) := s.resp.map fun r => r.st.code

/-- The bytes to transmit, when there are any. -/
def State.txOut (s : State) : Option (Byte × Byte) := s.resp.bind fun r => r.tx

/-- The port `TXV`: 1 when `TXB0` and `TXB1` carry encoded bytes (R29, R30). -/
def State.txvOut (s : State) : Bool := s.txOut.isSome

/-- The port `TXB0`, with no value unless ENCODE produced it (R30). -/
def State.txb0Out (s : State) : Option Byte := s.txOut.map Prod.fst

/-- The port `TXB1`, with no value unless ENCODE produced it (R30). -/
def State.txb1Out (s : State) : Option Byte := s.txOut.map Prod.snd

/-- What a command of the block ends in: a next state, or a refusal for one of the four reasons of spec/60_exceptions.md R148 and
no other. -/
abbrev BlockOutcome := Host.Outcome State Fault RefusalReason

/-- A block outcome as the host's interface holds it (log 9). -/
def present : BlockOutcome → Host.Outcome State Fault Refusal
  | .next t => .next t
  | .fault q => .fault q
  | .refused r => .refused (.reason r)

/-- End a command with status OK (spec/00_scope.md R10: `out ST = OK`). -/
def finish (s : State) (tx : Option (Byte × Byte)) : BlockOutcome := .next (s.respond .ok tx)

/-- `raise <Status>()`: end a command with a failure status and no bytes. This is not a trap: nothing is saved and nothing is
vectored (R10, spec/60_exceptions.md R144). -/
def raise (s : State) (st : Status) : BlockOutcome := .next (s.respond st none)

/-- `refuse(reason)`: the model gives the command no meaning, writes no state and answers nothing (R10, R147). The reason is one
of the four of R148. -/
def refuse (r : RefusalReason) : BlockOutcome := .refused r

/-- The state in which a step's command runs: the host's script moves on, the response of the step before is gone (R27), and a
host that reads `TEMP_O` sees the value from before the step (spec/70_reset_and_hazards.md R176). -/
def State.beginStep (s : State) (readsTempO : Bool) (rest : List HostStep) : State :=
  { s with inbox := rest, resp := none, tempRead := if readsTempO then some s.tempO else none }

/-- What a step finds on the ports. -/
inductive Fetched where
  /-- No command is presented. -/
  | waiting (t : State)
  /-- The presentation is refused before any command runs. -/
  | refuse (r : RefusalReason)
  /-- A command to run, in the state with its ports driven. -/
  | command (i : Instr) (t : State)
deriving DecidableEq, Repr

/-- Decode the presented command byte; a reserved byte is refused before any other check (spec/60_exceptions.md R145). -/
def decodePresented (p : InPorts) (t : State) : Fetched :=
  match decodeCommand p.cmd with
  | .ok i => .command i (t.setInp p)
  | .error _ => .refuse .reservedCommand

/-- Take the next thing the host does (R156). With nothing presented the block waits (spec/70_reset_and_hazards.md R172; log 4).
DESIGN CHOICE (log 6), safe: an early command is refused as `concurrentCommand` before anything else is looked at, also when its
byte is reserved, when it is a DECODE with `INITD` = 0 or an INIT with `INITD` = 1: the spec gives no order of ConcurrentCommand
against ReservedCommand, NotInitialised or AlreadyInitialised. -/
def fetch (s : State) : Fetched :=
  match s.inbox with
  | [] => .waiting (s.beginStep false [])
  | ⟨.wait, rd⟩ :: rest => .waiting (s.beginStep rd rest)
  | ⟨.commandEarly _, _⟩ :: _ => .refuse .concurrentCommand
  | ⟨.command p, rd⟩ :: rest => decodePresented p (s.beginStep rd rest)

/-- Place a command byte as the next command the host presents. The operand ports of a command that already stands there are
kept, else those last driven; a presentation that stood there early or not at all becomes a plain one (log 7). -/
def placeCommand (s : State) (b : Byte) : State :=
  match s.inbox with
  | [] => { s with inbox := [⟨.command { s.inp with cmd := b }, false⟩] }
  | ⟨.wait, rd⟩ :: rest => { s with inbox := ⟨.command { s.inp with cmd := b }, rd⟩ :: rest }
  | ⟨.command p, rd⟩ :: rest => { s with inbox := ⟨.command { p with cmd := b }, rd⟩ :: rest }
  | ⟨.commandEarly p, rd⟩ :: rest => { s with inbox := ⟨.command { p with cmd := b }, rd⟩ :: rest }

end Sys2Proof.Machine
end

