-- ==== Sys2Proof/Machine/CodecDecode.lean ====
section
/-! DEFINITION. The meaning of DECODE (spec/41_decode.md R100). -/

namespace Sys2Proof.Machine

/-- DECODE fails: the sentinel goes to `TEMP` and the command ends with the status (R103, R104). -/
def failDecode (s : State) (st : Status) : BlockOutcome := raise (s.setTemp Config.sentinel) st

/-- DECODE: refusal, then TransportError, then UnsupportedVariant, else the decoded word (R100; the order is R145). -/
def blockDecode (s : State) : BlockOutcome :=
  if s.initd = false then refuse .notInitialised
  else if s.inp.xok = false then failDecode s .transportError
  else match variantOf s.res with
    | none => failDecode s .unsupportedVariant
    | some v => finish (s.setTemp (decodeTemp v (rawOf s.inp))) none

/-- DECODE behind the host's interface. -/
def execDecode (s : State) : Host.Outcome State Fault Refusal := present (blockDecode s)

end Sys2Proof.Machine
end

