-- ==== Sys2Proof/Machine/CodecEncode.lean ====
section
/-! DEFINITION. The meaning of ENCODE (spec/40_encode.md R80). -/

namespace Sys2Proof.Machine

/-- The two bytes of a threshold register, high byte first (R80; spec/20_memory.md R45). -/
def encodeBytes (X : Int) : Byte × Byte := (highByte X, lowByte X)

/-- ENCODE: the range check comes first; no register is written on either outcome (R80, R81). -/
def blockEncode (s : State) : BlockOutcome :=
  if inRange (dinUnits s.inp) = false then raise s .invalidRange
  else finish s (some (encodeBytes (dinUnits s.inp)))

/-- ENCODE behind the host's interface. -/
def execEncode (s : State) : Host.Outcome State Fault Refusal := present (blockEncode s)

end Sys2Proof.Machine
end

