-- ==== Sys2Proof/Machine/CodecInit.lean ====
section
/-! DEFINITION. The meaning of INIT (spec/42_init.md R133). -/

namespace Sys2Proof.Machine

/-- INIT: store the tag unchecked (R131) and become initialised; refused when already initialised (R134). -/
def blockInit (tag : Tag) (s : State) : BlockOutcome :=
  if s.initd = true then refuse .alreadyInitialised
  else finish ((s.setRes tag).setInitd true) none

/-- INIT behind the host's interface. -/
def execInit (tag : Tag) (s : State) : Host.Outcome State Fault Refusal := present (blockInit tag s)

end Sys2Proof.Machine
end

