-- ==== Sys2Proof/Machine/Dispatch.lean ====
section
/-! DEFINITION. One arm per instruction of spec/opcode_table.json. -/

namespace Sys2Proof.Machine

def exec (i : Instr) (s : State) : Host.Outcome State Fault Refusal :=
  match i with
  | .init tag => Sys2Proof.Machine.execInit tag s
  | .decode => Sys2Proof.Machine.execDecode s
  | .encode => Sys2Proof.Machine.execEncode s

end Sys2Proof.Machine
end

