-- ==== Sys2Proof/Machine/Step.lean ====
section
/-! DEFINITION. One step of the machine: the block's handling of what the host presents (spec/00_scope.md R14, R15;
spec/70_reset_and_hazards.md R175). -/

namespace Sys2Proof.Machine

/-- One step: a presented command runs whole, a refused one stops the run (spec/60_exceptions.md R147), and with nothing
presented the block waits. -/
def step (s : State) : Host.Outcome State Fault Refusal :=
  match fetch s with
  | .waiting t => .next t
  | .refuse r => present (refuse r)
  | .command i t => exec i t

/-- `s` with a table word as the command the host presents in the next step (log 7). -/
def State.withFetchWord (s : State) (nbits w : Nat) : State := placeCommand s (tableByte nbits w)

end Sys2Proof.Machine
end

