-- ==== Sys2Proof/Machine/Assembler.lean ====
section
/-! DEFINITION. The assembler's lines (spec/30_encoding.md R68, R69): what each puts on the ports, and reading one from text. It is
notation for what a host presents: no step of the machine uses it (log 12). -/

namespace Sys2Proof.Machine

/-- The command a line stands for; `DECODE.FAIL` is a DECODE (R69). -/
def lineInstr : AsmLine → Instr
  | .init tag => .init tag
  | .decode _ _ => .decode
  | .encode _ => .encode
  | .decodeFail => .decode

/-- The ports a line drives. A port that the line does not name keeps its value in `base`: it is ignored
(spec/10_state.md R30), so nothing is chosen for it. -/
def drivePorts (base : InPorts) (l : AsmLine) : InPorts :=
  match l with
  | .init _ => { base with cmd := encode (lineInstr l) }
  | .decode b0 b1 => { base with cmd := encode (lineInstr l), rxb0 := b0, rxb1 := b1, xok := true }
  | .encode din => { base with cmd := encode (lineInstr l), din := din }
  | .decodeFail => { base with cmd := encode (lineInstr l), xok := false }

/-- What a host does that runs a program line by line. -/
def assemble (base : InPorts) (ls : List AsmLine) : List HostStep :=
  ls.map fun l => ⟨.command (drivePorts base l), false⟩

/-! ### Reading a line of text -/

/-- What a line of text is. -/
inductive ParsedLine where
  | blank
  | line (l : AsmLine)
  | malformed
deriving DecidableEq, Repr

/-- A finished token goes in front, an empty one does not. -/
def flushToken (tok : List Char) (toks : List (List Char)) : List (List Char) :=
  if tok = [] then toks else tok :: toks

/-- Tokens are separated by spaces and tabs; a comma is a token of its own. -/
def tokenize (tok : List Char) : List Char → List (List Char)
  | [] => flushToken tok []
  | c :: cs =>
    if c = ' ' || c = '\t' then flushToken tok (tokenize [] cs)
    else if c = ',' then flushToken tok ([','] :: tokenize [] cs)
    else tokenize (tok ++ [c]) cs

/-- A decimal digit. -/
def decimalDigit (c : Char) : Option Nat :=
  if 48 ≤ c.toNat ∧ c.toNat ≤ 57 then some (c.toNat - 48) else none

/-- A hexadecimal digit, of either case. -/
def hexDigit (c : Char) : Option Nat :=
  if 48 ≤ c.toNat ∧ c.toNat ≤ 57 then some (c.toNat - 48)
  else if 97 ≤ c.toNat ∧ c.toNat ≤ 102 then some (c.toNat - 87)
  else if 65 ≤ c.toNat ∧ c.toNat ≤ 70 then some (c.toNat - 55)
  else none

/-- The number a list of digits writes in a base, read from the value of the digits before them. -/
def digitsFrom (digit : Char → Option Nat) (base : Nat) : Nat → List Char → Option Nat
  | n, [] => some n
  | n, c :: cs =>
    match digit c with
    | some d => digitsFrom digit base (n * base + d) cs
    | none => none

/-- The number a non-empty list of digits writes in a base. -/
def digits (digit : Char → Option Nat) (base : Nat) (cs : List Char) : Option Nat :=
  if cs = [] then none else digitsFrom digit base 0 cs

/-- A number written 0x and hexadecimal digits, with the count of the digits. -/
def hexNumber : List Char → Option (Nat × Nat)
  | '0' :: 'x' :: ds => (digits hexDigit 16 ds).map fun n => (ds.length, n)
  | _ => none

/-- "each an 8-bit hex value" (R68): one or two hexadecimal digits. -/
def byteOperand (tok : List Char) : Option Byte :=
  match hexNumber tok with
  | some (k, n) => if k ≤ 2 then some (BitVec.ofNat 8 n) else none
  | none => none

/-- A decimal's units of 1/256 °C: sign, digits before and after the point. None unless it is a multiple of 1/256 in the
range of a Celsius word (R68, spec/00_scope.md R11). -/
def decimalUnits (negative : Bool) (whole fraction : List Char) : Option Int :=
  match digits decimalDigit 10 (whole ++ fraction) with
  | none => none
  | some n =>
    let scale := 10 ^ fraction.length
    let units : Int := if negative then -((n * 256 / scale : Nat) : Int) else ((n * 256 / scale : Nat) : Int)
    if n * 256 % scale = 0 ∧ -2147483648 ≤ units ∧ units ≤ 2147483647 then some units else none

/-- A decimal without its sign: digits, and perhaps a point and more digits. -/
def unsignedDecimal (negative : Bool) (tok : List Char) : Option Int :=
  let whole := tok.takeWhile (· ≠ '.')
  match tok.drop whole.length with
  | [] => if whole = [] then none else decimalUnits negative whole []
  | _ :: fraction => if whole = [] ∨ fraction = [] then none else decimalUnits negative whole fraction

/-- ENCODE's operand: a decimal multiple of 1/256, or eight hexadecimal digits "taken as DIN itself" (R68). -/
def celsiusOperand (tok : List Char) : Option Celsius :=
  match hexNumber tok with
  | some (k, n) => if k = 8 then some (BitVec.ofNat 32 n) else none
  | none =>
    match tok with
    | '-' :: rest => (unsignedDecimal true rest).map (BitVec.ofInt 32)
    | _ => (unsignedDecimal false tok).map (BitVec.ofInt 32)

/-- INIT's operand (R68). -/
def tagOperand (tok : List Char) : Option Tag :=
  if tok = ['R', 'E', 'S', '9'] then some 0#2
  else if tok = ['R', 'E', 'S', '1', '1'] then some 1#2
  else if tok = ['T', 'A', 'G', '2'] then some 2#2
  else if tok = ['T', 'A', 'G', '3'] then some 3#2
  else none

/-- A line whose operand was read, or a malformed one. -/
def lineOf : Option AsmLine → ParsedLine
  | some l => .line l
  | none => .malformed

/-- A line from its tokens; the mnemonic is given in capitals. -/
def parseTokens (mnemonic : List Char) (operands : List (List Char)) : ParsedLine :=
  if mnemonic = ['I', 'N', 'I', 'T'] then
    match operands with
    | [t] => lineOf ((tagOperand t).map .init)
    | _ => .malformed
  else if mnemonic = ['D', 'E', 'C', 'O', 'D', 'E'] then
    match operands with
    | [b0, comma, b1] =>
      if comma = [','] then
        lineOf ((byteOperand b0).bind fun x => (byteOperand b1).map fun y => .decode x y)
      else .malformed
    | _ => .malformed
  else if mnemonic = ['E', 'N', 'C', 'O', 'D', 'E'] then
    match operands with
    | [c] => lineOf ((celsiusOperand c).map .encode)
    | _ => .malformed
  else if mnemonic = ['D', 'E', 'C', 'O', 'D', 'E', '.', 'F', 'A', 'I', 'L'] then
    match operands with
    | [] => .line .decodeFail
    | _ => .malformed
  else .malformed

/-- Read one line: "A `;` starts a comment. The mnemonic is case-insensitive" (R68). -/
def parseLine (cs : List Char) : ParsedLine :=
  match tokenize [] (cs.takeWhile (· ≠ ';')) with
  | [] => .blank
  | m :: operands => parseTokens (m.map Char.toUpper) operands

/-- Read a program, one command per line (R68); none if a line is malformed. -/
def parseProgram : List (List Char) → Option (List AsmLine)
  | [] => some []
  | cs :: rest =>
    match parseLine cs with
    | .blank => parseProgram rest
    | .line l => (parseProgram rest).map (l :: ·)
    | .malformed => none

end Sys2Proof.Machine
end

