-- ==== Sys2Proof/Machine/Block.lean ====
section
/-! DEFINITION. The block's own machine, whose refusal type is exactly the four reasons of spec/60_exceptions.md R148. `step` and
`core` are this machine seen through the host's interface, which asks for a wider refusal type (log 9). -/

namespace Sys2Proof.Machine

/-- A command of the block, with the meanings that `exec` shows to the host. -/
def blockExec (i : Instr) (s : State) : BlockOutcome :=
  match i with
  | .init tag => blockInit tag s
  | .decode => blockDecode s
  | .encode => blockEncode s

/-- One step of the block (spec/70_reset_and_hazards.md R175): it waits, refuses what is presented, or runs it. -/
def blockStep (s : State) : BlockOutcome :=
  match fetch s with
  | .waiting t => .next t
  | .refuse r => refuse r
  | .command i t => blockExec i t

/-- The block as a machine. -/
def blockCore : Host.Core where
  State := State
  Fault := Fault
  Refusal := RefusalReason
  step := blockStep
  reset := State.reset

end Sys2Proof.Machine
end

