-- ==== Sys2Proof/Safety.lean ====
section
/-! DEFINITION. What a safe run is: the host keeps its duties (spec/60_exceptions.md R156, spec/70_reset_and_hazards.md R173), so no
command is refused; the invariant of the machine; and when two values of the input ports are the same to a command
(spec/10_state.md R30). -/

namespace Sys2Proof.Machine

/-- `k` steps of the block, stopping at the first fault or refusal: a refusal is kept for the rest of the run
(spec/60_exceptions.md R147; log 5), and its reason is one of the four of R148. -/
def run : Nat → State → BlockOutcome
  | 0, s => .next s
  | k + 1, s =>
    match blockStep s with
    | .next t => run k t
    | .fault r => .fault r
    | .refused r => .refused r

/-- The duties of the host over its next steps, from an `INITD`: valid command bytes (R66), INIT once and before any DECODE
(R173), and no command before the previous one has completed (R155). -/
def admitted : Bool → List HostStep → Bool
  | _, [] => true
  | initd, ⟨.wait, _⟩ :: rest => admitted initd rest
  | _, ⟨.commandEarly _, _⟩ :: _ => false
  | initd, ⟨.command p, _⟩ :: rest =>
    match decodeCommand p.cmd with
    | .ok (.init _) => !initd && admitted true rest
    | .ok .decode => initd && admitted initd rest
    | .ok .encode => admitted initd rest
    | .error _ => false

/-- The first item of a script that breaks a duty, from an `INITD`: its place and the reason of its refusal
(spec/60_exceptions.md R148). DESIGN CHOICE (log 6), safe: an early item's reason is `concurrentCommand`, whatever its command. -/
def firstBreach : Bool → List HostStep → Option (Nat × RefusalReason)
  | _, [] => none
  | initd, ⟨.wait, _⟩ :: rest => (firstBreach initd rest).map fun x => (x.1 + 1, x.2)
  | _, ⟨.commandEarly _, _⟩ :: _ => some (0, .concurrentCommand)
  | initd, ⟨.command p, _⟩ :: rest =>
    match decodeCommand p.cmd with
    | .ok (.init _) =>
      if initd then some (0, .alreadyInitialised) else (firstBreach true rest).map fun x => (x.1 + 1, x.2)
    | .ok .decode =>
      if initd then (firstBreach initd rest).map fun x => (x.1 + 1, x.2) else some (0, .notInitialised)
    | .ok .encode => (firstBreach initd rest).map fun x => (x.1 + 1, x.2)
    | .error _ => some (0, .reservedCommand)

/-- The script holds no DECODE that runs. -/
def decodeFree : List HostStep → Bool
  | [] => true
  | ⟨.wait, _⟩ :: rest => decodeFree rest
  | ⟨.commandEarly _, _⟩ :: rest => decodeFree rest
  | ⟨.command p, _⟩ :: rest =>
    match decodeCommand p.cmd with
    | .ok .decode => false
    | .ok (.init _) => decodeFree rest
    | .ok .encode => decodeFree rest
    | .error _ => decodeFree rest

/-- A Celsius word that a successful DECODE can write under a variant: −128 °C to just under 128 °C in whole steps
(spec/41_decode.md R109). -/
def decodable (v : Variant) (W : Celsius) : Prop :=
  -32768 ≤ W.toInt ∧ W.toInt ≤ 32768 - v.stepUnits ∧ W.toInt % v.stepUnits = 0

/-- What `TEMP` may hold, given the tag: 0 before the first DECODE (spec/42_init.md R132), then the sentinel or a word of the
tag's variant; under an unsupported tag only 0 or the sentinel (spec/41_decode.md R103, R111). -/
def legalTemp (res : Tag) (W : Celsius) : Prop :=
  W = Config.sentinel ∨ W = 0#32 ∨ ∃ v, variantOf res = some v ∧ decodable v W

/-- A response that some command can give: bytes come only with OK, they are a signed degree in [−55, 125] and a flag 0x80 or
0x00 (spec/40_encode.md R80 to R83), and a failed DECODE leaves the sentinel (spec/60_exceptions.md R140). -/
def legalResponse (temp : Celsius) (r : Response) : Prop :=
  (∀ b0 b1, r.tx = some (b0, b1) →
    r.st = .ok ∧ -55 ≤ b0.toInt ∧ b0.toInt ≤ 125 ∧ (b1 = 0#8 ∨ b1 = Config.halfFlag)) ∧
  (r.st = .unsupportedVariant ∨ r.st = .transportError → temp = Config.sentinel)

/-- The invariant: before INIT the registers are as reset left them, `TEMP` is legal for the stored tag, and the response is
one that a command can give. -/
structure State.Inv (s : State) : Prop where
  uninitialised : s.initd = false → s.res = 0#2 ∧ s.temp = 0#32
  temp_legal : legalTemp s.res s.temp
  response_legal : ∀ r, s.resp = some r → legalResponse s.temp r

/-- Two values of the input ports that are the same to a command: INIT uses `CMD` alone, DECODE uses `XOK` and, when it is 1,
the two bytes, ENCODE uses `DIN` (spec/10_state.md R30). -/
def samePorts : Instr → InPorts → InPorts → Prop
  | .init _, _, _ => True
  | .decode, p, q => p.xok = q.xok ∧ (p.xok = true → p.rxb0 = q.rxb0 ∧ p.rxb1 = q.rxb1)
  | .encode, p, q => p.din = q.din

/-- An outcome with its next state's input ports replaced, to compare outcomes but for the ports. -/
def withInp (p : InPorts) : Host.Outcome State Fault Refusal → Host.Outcome State Fault Refusal
  | .next t => .next (t.setInp p)
  | .fault r => .fault r
  | .refused r => .refused r

end Sys2Proof.Machine
end

