-- ==== Sys2Proof/Certificates/Slice0/Obligations.lean ====
section
/-! DEFINITION. The statements for the provers. Each docstring names the rule of spec/ it formalises; where it rests on an inference
the spec marks as its own ("derived") or on a choice of the model (a log entry), it says so. A next state written as a record
update says the whole frame: every field not named is unchanged. Temperatures are in units of 1/256 °C. -/

open Sys2Proof Sys2Proof.Machine

/-! ### Reset, waiting and the step -/

/-- R170: the three registers and the outputs right after reset. -/
def Obligations.ResetStateAsTabulated : Prop :=
  State.reset.res = 0#2 ∧ State.reset.initd = false ∧ State.reset.temp = 0x00000000#32 ∧
  State.reset.tempO = 0x00000000#32 ∧ State.reset.resp = none

/-- The invariant `State.Inv` holds right after reset. -/
def Obligations.ResetMeetsTheInvariant : Prop := State.reset.Inv

/-- The invariant is kept by every step from every state that meets it: before INIT the registers are as reset left them, `TEMP`
is 0, the sentinel or a word of the stored variant, and the response is one that a command can give. -/
def Obligations.EveryStepKeepsTheInvariant : Prop :=
  ∀ s t : State, s.Inv → step s = .next t → t.Inv

/-- With nothing presented the block waits: the registers and the input ports keep their values, there is no response, and a host
that reads `TEMP_O` in that step reads `TEMP`. The spec says that the block "waits for the host's first command"
(70_reset_and_hazards.md) and that the host may read `TEMP_O` "at any time" (60_exceptions.md); that a step without a command is
such a wait is the model's reading (log 4), and so are the record of the read (log 8), the script, and its being empty at reset,
on which the last clause rests (log 1). -/
def Obligations.BlockWaitsWithoutACommand : Prop :=
  (∀ s : State, s.inbox = [] → step s = .next { s with resp := none, tempRead := none }) ∧
  (∀ (s : State) (rd : Bool) (rest : List HostStep), s.inbox = ⟨.wait, rd⟩ :: rest →
    step s = .next { s with inbox := rest, resp := none, tempRead := if rd then some s.temp else none }) ∧
  step State.reset = .next State.reset

/-- A step runs the command that the presented byte decodes to, with its ports driven, the host's script moved on and the
response of the step before gone. The script and its step are the model's form of the host (log 1, log 3, log 8). -/
def Obligations.StepRunsTheDecodedCommand : Prop :=
  ∀ (s : State) (p : InPorts) (rd : Bool) (rest : List HostStep) (i : Instr),
    s.inbox = ⟨.command p, rd⟩ :: rest → decodeCommand p.cmd = .ok i → i.wellFormed = true →
    step s = exec i { s with inbox := rest, inp := p, resp := none, tempRead := if rd then some s.temp else none }

/-- A table word placed by `withFetchWord` is the command the very next step runs, with only the command byte replaced: the
operand ports are those of the command that stood first in the script, else those last driven, and the rest of the script and a
read of `TEMP_O` are kept (log 7: the host's script stands for the program, since the block has no command memory). -/
def Obligations.PlacedWordRunsNext : Prop :=
  ∀ (s : State) (w : Nat) (i : Instr), decodeTableWord 8 w = some i →
    (s.inbox = [] → step (s.withFetchWord 8 w) =
      exec i { s with inp := { s.inp with cmd := BitVec.ofNat 8 w }, resp := none, tempRead := none }) ∧
    (∀ (rd : Bool) (rest : List HostStep), s.inbox = ⟨.wait, rd⟩ :: rest → step (s.withFetchWord 8 w) =
      exec i { s with inbox := rest, inp := { s.inp with cmd := BitVec.ofNat 8 w }, resp := none,
                      tempRead := if rd then some s.temp else none }) ∧
    (∀ (p : InPorts) (rd : Bool) (rest : List HostStep),
      s.inbox = ⟨.command p, rd⟩ :: rest ∨ s.inbox = ⟨.commandEarly p, rd⟩ :: rest → step (s.withFetchWord 8 w) =
        exec i { s with inbox := rest, inp := { p with cmd := BitVec.ofNat 8 w }, resp := none,
                        tempRead := if rd then some s.temp else none })

/-- The host's script may be cut anywhere: the later commands start from the state the earlier ones left, and the earlier ones
see nothing of the later. The script is the model's form of "Commands take effect in the order the host presents them"
(20_memory.md; log 1). -/
def Obligations.CommandsTakeEffectInOrder : Prop :=
  ∀ (s t : State) (l l' : List HostStep),
    run l.length { s with inbox := l } = .next t →
    run l.length { s with inbox := l ++ l' } = .next { t with inbox := l' } ∧
    run (l ++ l').length { s with inbox := l ++ l' } =
      run l'.length { t with inbox := l' }

/-! ### INIT -/

/-- R131, R133, R134: the command byte, the stored tag, the refusal, the worked example; nothing else changes. -/
def Obligations.InitStoresTheTagUnchecked : Prop :=
  (∀ (tag : Tag) (s : State), s.initd = false →
    exec (.init tag) s = .next { s with res := tag, initd := true, resp := some ⟨.ok, none⟩ }) ∧
  (∀ (tag : Tag) (s : State), s.initd = true → exec (.init tag) s = .refused (.reason .alreadyInitialised)) ∧
  (∀ tag : Tag, decodeCommand (0#3 ++ tag ++ 1#3) = .ok (.init tag)) ∧
  (decodeCommand 0x01 = .ok (.init 0#2) ∧ decodeCommand 0x09 = .ok (.init 1#2) ∧
    decodeCommand 0x11 = .ok (.init 2#2) ∧ decodeCommand 0x19 = .ok (.init 3#2)) ∧
  (∀ t : State, exec (.init 1#2) State.reset = .next t →
    t.res = 1#2 ∧ t.initd = true ∧ t.temp = 0x00000000#32 ∧ t.stOut = some 0#2)

/-- R132: INIT does not write `TEMP`, and until a DECODE runs `TEMP` holds what it held, from reset 0. -/
def Obligations.TempHeldUntilTheFirstDecode : Prop :=
  (∀ (tag : Tag) (s t : State), exec (.init tag) s = .next t → t.temp = s.temp) ∧
  (∀ (k : Nat) (s t : State), decodeFree s.inbox = true → run k s = .next t → t.temp = s.temp) ∧
  (∀ (k : Nat) (l : List HostStep) (t : State), decodeFree l = true →
    run k { State.reset with inbox := l } = .next t → t.temp = 0x00000000#32)

/-- R22: `RES` is written only by INIT and only while `INITD` = 0, then it never changes; INIT stores any tag. -/
def Obligations.ResWrittenOnceByInit : Prop :=
  (∀ s t : State, step s = .next t → t.res ≠ s.res →
    s.initd = false ∧ ∃ p rd rest tag, s.inbox = ⟨.command p, rd⟩ :: rest ∧
      decodeCommand p.cmd = .ok (.init tag) ∧ t.res = tag) ∧
  (∀ (k : Nat) (s t : State), s.initd = true → run k s = .next t → t.res = s.res) ∧
  (∀ (tag : Tag) (s : State), s.initd = false → ∃ t, exec (.init tag) s = .next t ∧ t.res = tag)

/-- R23: reset clears `INITD`, INIT sets it, nothing else changes it and nothing but reset clears it; DECODE requires it. -/
def Obligations.InitdSetByInitAndNeverCleared : Prop :=
  State.reset.initd = false ∧
  (∀ (tag : Tag) (s : State), s.initd = false → ∃ t, exec (.init tag) s = .next t ∧ t.initd = true) ∧
  (∀ s t : State, step s = .next t → t.initd ≠ s.initd →
    t.initd = true ∧ ∃ p rd rest tag, s.inbox = ⟨.command p, rd⟩ :: rest ∧ decodeCommand p.cmd = .ok (.init tag)) ∧
  (∀ (k : Nat) (s t : State), s.initd = true → run k s = .next t → t.initd = true) ∧
  (∀ s t : State, exec .decode s = .next t → s.initd = true)

/-! ### DECODE -/

/-- R101: the non-negative path, in both variants. -/
def Obligations.DecodeNonNegativePath : Prop :=
  ∀ s : State, s.initd = true → s.inp.xok = true → (rawOf s.inp).getLsbD 15 = false →
    (s.res = 0#2 → exec .decode s = .next { s with
      temp := BitVec.ofInt 32 (((rawOf s.inp).toNat >>> 7 : Nat) * 128), resp := some ⟨.ok, none⟩ }) ∧
    (s.res = 1#2 → exec .decode s = .next { s with
      temp := BitVec.ofInt 32 (((rawOf s.inp).toNat >>> 5 : Nat) * 32), resp := some ⟨.ok, none⟩ })

/-- R102: the negative path, in both variants, with the inversion over 16 bits. -/
def Obligations.DecodeNegativePath : Prop :=
  ∀ s : State, s.initd = true → s.inp.xok = true → (rawOf s.inp).getLsbD 15 = true →
    (s.res = 0#2 → exec .decode s = .next { s with
      temp := BitVec.ofInt 32 (-(((~~~(rawOf s.inp)).toNat >>> 7 : Nat) + 1) * 128), resp := some ⟨.ok, none⟩ }) ∧
    (s.res = 1#2 → exec .decode s = .next { s with
      temp := BitVec.ofInt 32 (-(((~~~(rawOf s.inp)).toNat >>> 5 : Nat) + 1) * 32), resp := some ⟨.ok, none⟩ })

/-- The spec's own inference "In both paths, `n = floor(sint_16(raw) / 2^SHIFT) = sint_16(asr_16(raw, SHIFT))`"
(41_decode.md): the two paths are one arithmetic shift, and DECODE writes n steps. -/
def Obligations.DecodeIsOneArithmeticShift : Prop :=
  (∀ (v : Variant) (raw : Raw),
    decodeCount v raw = raw.toInt / 2 ^ v.shift ∧ decodeCount v raw = (raw.sshiftRight v.shift).toInt) ∧
  (∀ (s : State) (v : Variant), s.initd = true → s.inp.xok = true → variantOf s.res = some v →
    exec .decode s = .next { s with
      temp := BitVec.ofInt 32 ((rawOf s.inp).toInt / 2 ^ v.shift * v.stepUnits), resp := some ⟨.ok, none⟩ })

/-- The spec's own inference that `TEMP` is the raw value "with its low `SHIFT` bits cleared, sign-extended to 32 bits"
(41_decode.md), so those bits never affect the result. -/
def Obligations.DecodeSignExtendsTheMaskedValue : Prop :=
  (∀ v : Variant, v.stepUnits = 2 ^ v.shift) ∧
  (∀ (v : Variant) (raw : Raw),
    decodeTemp v raw = (raw &&& ~~~(BitVec.ofNat 16 (2 ^ v.shift - 1))).signExtend 32 ∧
    (decodeTemp v raw).toInt = (raw &&& ~~~(BitVec.ofNat 16 (2 ^ v.shift - 1))).toInt) ∧
  (∀ (v : Variant) (raw raw' : Raw),
    (∀ k, v.shift ≤ k → raw.getLsbD k = raw'.getLsbD k) → decodeTemp v raw = decodeTemp v raw')

/-- The spec's own inference of the table of decode results (41_decode.md): ranges, signs and steps per variant, and every word of
the range is reached. -/
def Obligations.DecodeResultTable : Prop :=
  (∀ (s t : State), exec .decode s = .next t → t.resp = some ⟨.ok, none⟩ →
    (s.res = 0#2 ∨ s.res = 1#2) ∧
    (s.res = 0#2 → (rawOf s.inp).getLsbD 15 = false → 0 ≤ t.temp.toInt ∧ t.temp.toInt ≤ 32640) ∧
    (s.res = 0#2 → (rawOf s.inp).getLsbD 15 = true → -32768 ≤ t.temp.toInt ∧ t.temp.toInt ≤ -128) ∧
    (s.res = 0#2 → t.temp.toInt % 128 = 0) ∧
    (s.res = 1#2 → (rawOf s.inp).getLsbD 15 = false → 0 ≤ t.temp.toInt ∧ t.temp.toInt ≤ 32736) ∧
    (s.res = 1#2 → (rawOf s.inp).getLsbD 15 = true → -32768 ≤ t.temp.toInt ∧ t.temp.toInt ≤ -32) ∧
    (s.res = 1#2 → t.temp.toInt % 32 = 0)) ∧
  (∀ (v : Variant) (W : Celsius), decodable v W → ∃ raw, decodeTemp v raw = W)

/-- The spec's own inference from the left-justified format (00_scope.md): SHIFT is 16 − v, bit 15 weighs −128 °C and bit k from
SHIFT up weighs 2^(k − 8) °C. So STEP, the weight of bit SHIFT, is 2^(8 − v) °C: the 0.5 °C and 0.125 °C of the parameter table.
The formula 2^(9 − v) that 00_scope.md prints beside it is twice those values (log 11). -/
def Obligations.DecodeBitWeights : Prop :=
  (∀ v : Variant, v.shift = 16 - v.bits ∧ v.stepUnits * 2 ^ v.bits = 2 ^ 8 * 256) ∧
  (∀ (v : Variant) (raw : Raw), (decodeTemp v raw).toInt =
    (if raw.getLsbD 15 then -2 ^ 15 else 0) +
      ∑ k ∈ Finset.Ico v.shift 15, (if raw.getLsbD k then (2 : Int) ^ k else 0))

/-- R103: an unsupported tag, with a successful transfer. The received bytes are not used. -/
def Obligations.DecodeUnsupportedTagWritesSentinel : Prop :=
  ∀ s : State, s.initd = true → s.inp.xok = true → s.res = 2#2 ∨ s.res = 3#2 →
    exec .decode s = .next { s with temp := 0xFFFC1800#32, resp := some ⟨.unsupportedVariant, none⟩ }

/-- R104, R105: a failed transfer, whatever the tag. The received bytes are not used. -/
def Obligations.DecodeTransportFailureWritesSentinel : Prop :=
  ∀ s : State, s.initd = true → s.inp.xok = false →
    exec .decode s = .next { s with temp := 0xFFFC1800#32, resp := some ⟨.transportError, none⟩ }

/-- R106: DECODE before INIT. -/
def Obligations.DecodeBeforeInitIsRefused : Prop :=
  ∀ s : State, s.initd = false → exec .decode s = .refused (.reason .notInitialised)

/-- R110: no range check and no clamp: every raw value of a supported variant decodes with status OK to its own value, 127.5 °C
from 0x7F80 among them. -/
def Obligations.DecodeNeitherChecksNorClamps : Prop :=
  (∀ s : State, s.initd = true → s.inp.xok = true → s.res = 0#2 ∨ s.res = 1#2 →
    ∃ t, exec .decode s = .next t ∧ t.stOut = some 0#2 ∧
      (s.res = 0#2 → t.temp.toInt = (rawOf s.inp).toInt - (rawOf s.inp).toInt % 128) ∧
      (s.res = 1#2 → t.temp.toInt = (rawOf s.inp).toInt - (rawOf s.inp).toInt % 32)) ∧
  (∀ s : State, s.initd = true → s.inp.xok = true → s.res = 0#2 ∨ s.res = 1#2 →
    s.inp.rxb0 = 0x7F#8 → s.inp.rxb1 = 0x80#8 →
    ∃ t, exec .decode s = .next t ∧ t.stOut = some 0#2 ∧ t.temp = 0x00007F80#32)

/-- The spec's own inference that "after a DECODE, `TEMP = 0xFFFC1800` exactly when that DECODE failed" (41_decode.md). -/
def Obligations.SentinelMarksAFailedDecode : Prop :=
  ∀ s t : State, exec .decode s = .next t → (t.temp = 0xFFFC1800#32 ↔ t.stOut ≠ some 0#2)

/-- R24: `TEMP` holds the result of the last DECODE, INIT and ENCODE leave it, its reset value is 0, and `TEMP_O` is its value. -/
def Obligations.TempHoldsTheLastDecodeResult : Prop :=
  (∀ s : State, s.initd = true → ∃ t, exec .decode s = .next t ∧
    (t.stOut = some 0#2 → ∃ v, variantOf s.res = some v ∧ t.temp = decodeTemp v (rawOf s.inp)) ∧
    (t.stOut ≠ some 0#2 → t.temp = 0xFFFC1800#32)) ∧
  (∀ (tag : Tag) (s t : State), exec (.init tag) s = .next t → t.temp = s.temp) ∧
  (∀ s t : State, exec .encode s = .next t → t.temp = s.temp) ∧
  State.reset.temp = 0x00000000#32 ∧ (∀ s : State, s.tempO = s.temp) ∧ cwVal 0xFFFC1800#32 = -1000

/-- R44: DECODE's value is big-endian, the first byte received in bits 15:8. -/
def Obligations.DecodeReadsTheFirstByteHigh : Prop :=
  (∀ p : InPorts, (rawOf p).extractLsb' 8 8 = p.rxb0 ∧ (rawOf p).extractLsb' 0 8 = p.rxb1) ∧
  (∀ (s : State) (v : Variant), s.initd = true → s.inp.xok = true → variantOf s.res = some v →
    ∃ t, exec .decode s = .next t ∧ t.temp = decodeTemp v (s.inp.rxb0 ++ s.inp.rxb1))

/-- The spec's own inference about a wrong supported tag (70_reset_and_hazards.md): DECODE reports OK, and 0x4820 gives 72.0 °C
under RES9 and 72.125 °C under RES11, while 0x4800 gives 72.0 °C under both. -/
def Obligations.WrongSupportedTagGoesUnnoticed : Prop :=
  ∀ s : State, s.initd = true → s.inp.xok = true → s.inp.rxb0 = 0x48#8 →
    (s.inp.rxb1 = 0x20#8 → s.res = 0#2 → ∃ t, exec .decode s = .next t ∧ t.stOut = some 0#2 ∧ cwVal t.temp = 72) ∧
    (s.inp.rxb1 = 0x20#8 → s.res = 1#2 → ∃ t, exec .decode s = .next t ∧ t.stOut = some 0#2 ∧ cwVal t.temp = 72 + 1 / 8) ∧
    (s.inp.rxb1 = 0x00#8 → s.res = 0#2 ∨ s.res = 1#2 →
      ∃ t, exec .decode s = .next t ∧ t.stOut = some 0#2 ∧ cwVal t.temp = 72)

/-! ### ENCODE -/

/-- R45, R82, R83: the two bytes and the ports they stand on: `TXB0` is the integer part truncated toward zero, which fits a signed
byte, and `TXB1` the half-degree flag, set by the magnitude's fraction; nothing but the response changes. -/
def Obligations.EncodeAnswersTruncatedDegreeAndHalfFlag : Prop :=
  ∀ s : State, -14080 ≤ s.inp.din.toInt → s.inp.din.toInt ≤ 32000 →
    ∃ (b0 b1 : Byte) (t : State), exec .encode s = .next t ∧ t = { s with resp := some ⟨.ok, some (b0, b1)⟩ } ∧
      t.stOut = some 0#2 ∧ t.txvOut = true ∧ t.txb0Out = some b0 ∧ t.txb1Out = some b1 ∧
      b0 = BitVec.ofInt 8 (s.inp.din.toInt.tdiv 256) ∧ b0.toInt = s.inp.din.toInt.tdiv 256 ∧
      -55 ≤ b0.toInt ∧ b0.toInt ≤ 125 ∧
      b1 = (if 128 ≤ s.inp.din.toInt.natAbs % 256 then 0x80#8 else 0x00#8)

/-- R81: accepted exactly in −55 ≤ c ≤ 125; a rejected value produces no bytes and changes nothing but the response. -/
def Obligations.EncodeAcceptsExactlyTheValidRange : Prop :=
  (∀ s : State, -14080 ≤ s.inp.din.toInt ∧ s.inp.din.toInt ≤ 32000 →
    ∃ t, exec .encode s = .next t ∧ t.stOut = some 0#2 ∧ t.txvOut = true) ∧
  (∀ s : State, ¬(-14080 ≤ s.inp.din.toInt ∧ s.inp.din.toInt ≤ 32000) →
    exec .encode s = .next { s with resp := some ⟨.invalidRange, none⟩ })

/-- The spec's own inference about the value ENCODE's two bytes have as a register (40_encode.md), with the high byte first. -/
def Obligations.EncodedRegisterValueLaw : Prop :=
  ∀ (s t : State) (b0 b1 : Byte), exec .encode s = .next t → t.txOut = some (b0, b1) →
    (b0 ++ b1 : Raw).toInt =
      256 * s.inp.din.toInt.tdiv 256 + (if 128 ≤ s.inp.din.toInt.natAbs % 256 then 128 else 0) ∧
    (0 ≤ s.inp.din.toInt → (b0 ++ b1 : Raw).toInt = 128 * (s.inp.din.toInt / 128) ∧
      0 ≤ s.inp.din.toInt - (b0 ++ b1 : Raw).toInt ∧ s.inp.din.toInt - (b0 ++ b1 : Raw).toInt < 128) ∧
    (s.inp.din.toInt < 0 → s.inp.din.toInt.natAbs % 256 < 128 →
      0 ≤ (b0 ++ b1 : Raw).toInt - s.inp.din.toInt ∧ (b0 ++ b1 : Raw).toInt - s.inp.din.toInt < 128) ∧
    (s.inp.din.toInt < 0 → 128 ≤ s.inp.din.toInt.natAbs % 256 →
      256 ≤ (b0 ++ b1 : Raw).toInt - s.inp.din.toInt ∧ (b0 ++ b1 : Raw).toInt - s.inp.din.toInt < 384)

/-- Reading an encoded threshold back: whenever ENCODE answers bytes and the block is initialised with a supported tag, a DECODE
of those bytes answers OK and the temperature the spec's law gives (40_encode.md; it stands in place of the source's round trip,
90_conflicts.md C1). -/
def Obligations.DecodeOfEncodedThreshold : Prop :=
  ∀ (s t : State) (v : Variant) (b0 b1 : Byte), exec .encode s = .next t → t.txOut = some (b0, b1) →
    s.initd = true → variantOf s.res = some v →
    ∃ u, exec .decode (t.setInp { t.inp with rxb0 := b0, rxb1 := b1, xok := true }) = .next u ∧ u.stOut = some 0#2 ∧
      (0 ≤ s.inp.din.toInt → u.temp.toInt = 128 * (s.inp.din.toInt / 128)) ∧
      (s.inp.din.toInt < 0 → s.inp.din.toInt.natAbs % 256 < 128 → u.temp.toInt = 256 * s.inp.din.toInt.tdiv 256) ∧
      (s.inp.din.toInt < 0 → 128 ≤ s.inp.din.toInt.natAbs % 256 →
        u.temp.toInt = 256 * s.inp.din.toInt.tdiv 256 + 128)

/-- R84: ENCODE reads neither `RES` nor `INITD`: its response depends on `DIN` alone, and it changes nothing else. -/
def Obligations.EncodeDependsOnDinAlone : Prop :=
  ∀ s s' : State, s.inp.din = s'.inp.din →
    ∃ r : Response, exec .encode s = .next { s with resp := some r } ∧ exec .encode s' = .next { s' with resp := some r }

/-! ### Ports, statuses and refusals -/

/-- R30: a port that a command does not use does not affect its result, and `TXB0`, `TXB1` have no value without `TXV`, which only
ENCODE sets. -/
def Obligations.UnusedPortsAreIgnored : Prop :=
  (∀ (i : Instr) (s : State) (p : InPorts), samePorts i s.inp p → exec i (s.setInp p) = withInp p (exec i s)) ∧
  (∀ (i : Instr) (s t : State), exec i s = .next t → t.txvOut = true → i = .encode) ∧
  (∀ (i : Instr) (s t : State), exec i s = .next t → t.txvOut = false → t.txb0Out = none ∧ t.txb1Out = none)

/-- R141, R142, R143: each failure status is raised by one command alone, exactly under its condition, and records what the rule
says. -/
def Obligations.FailureStatusesHaveOneCause : Prop :=
  ∀ (i : Instr) (s t : State), exec i s = .next t →
    (t.stOut = some 1#2 ↔ i = .encode ∧ (s.inp.din.toInt < -14080 ∨ 32000 < s.inp.din.toInt)) ∧
    (t.stOut = some 2#2 ↔ i = .decode ∧ s.inp.xok = true ∧ s.initd = true ∧ s.res ≠ 0#2 ∧ s.res ≠ 1#2) ∧
    (t.stOut = some 3#2 ↔ i = .decode ∧ s.initd = true ∧ s.inp.xok = false) ∧
    (t.stOut = some 1#2 → t.res = s.res ∧ t.initd = s.initd ∧ t.temp = s.temp ∧ t.txvOut = false) ∧
    (t.stOut = some 2#2 → t.temp = 0xFFFC1800#32) ∧
    (t.stOut = some 3#2 → t.temp = 0xFFFC1800#32)

/-- R145: the order of the checks of a presented command, a reserved byte first. -/
def Obligations.OutcomeDecidedInOrder : Prop :=
  ∀ (s : State) (p : InPorts) (rd : Bool) (rest : List HostStep), s.inbox = ⟨.command p, rd⟩ :: rest →
    (∀ e, decodeCommand p.cmd = .error e → step s = .refused (.reason .reservedCommand)) ∧
    (∀ tag, decodeCommand p.cmd = .ok (.init tag) →
      (s.initd = true → step s = .refused (.reason .alreadyInitialised)) ∧
      (s.initd = false → ∃ t, step s = .next t ∧ t.stOut = some 0#2)) ∧
    (decodeCommand p.cmd = .ok .decode →
      (s.initd = false → step s = .refused (.reason .notInitialised)) ∧
      (s.initd = true → p.xok = false → ∃ t, step s = .next t ∧ t.stOut = some 3#2) ∧
      (s.initd = true → p.xok = true → s.res = 2#2 ∨ s.res = 3#2 → ∃ t, step s = .next t ∧ t.stOut = some 2#2) ∧
      (s.initd = true → p.xok = true → s.res = 0#2 ∨ s.res = 1#2 → ∃ t, step s = .next t ∧ t.stOut = some 0#2)) ∧
    (decodeCommand p.cmd = .ok .encode →
      (p.din.toInt < -14080 ∨ 32000 < p.din.toInt → ∃ t, step s = .next t ∧ t.stOut = some 1#2) ∧
      (-14080 ≤ p.din.toInt → p.din.toInt ≤ 32000 → ∃ t, step s = .next t ∧ t.stOut = some 0#2))

/-- The spec's own inference that no status is sticky (60_exceptions.md): a step does not depend on the response before it, which
the model keeps in State only to show it (log 3, log 8). -/
def Obligations.NoStepReadsAnEarlierResponse : Prop :=
  ∀ (s : State) (r : Option Response) (q : Option Celsius), step { s with resp := r, tempRead := q } = step s

/-- A script that is not admitted is refused at its first item that breaks a duty, for that item's reason, and stays refused however
long the run goes on; up to that item it runs. The refusal mark "kept for the rest of the run" (60_exceptions.md) is in the model
the outcome itself (log 5), the script is log 1, and an early item is log 6. -/
def Obligations.BreachedScriptIsRefusedAtItsFirstBreach : Prop :=
  ∀ s : State,
    (admitted s.initd s.inbox = false → ∃ n r, firstBreach s.initd s.inbox = some (n, r) ∧ n < s.inbox.length) ∧
    (∀ (n : Nat) (r : RefusalReason), firstBreach s.initd s.inbox = some (n, r) →
      admitted s.initd s.inbox = false ∧
      (∀ k, k ≤ n → ∃ t, run k s = .next t) ∧
      (∀ k, n < k → run k s = .refused r))

/-- The block's refusal type has the four reasons of 60_exceptions.md and no others, and a step is refused exactly for one of them,
each under its condition: every command, step and run behind the host's interface is the block's own, whose refusal type that is,
seen through that interface, so the interface's outcome for an instruction without a meaning never occurs (log 9). An early presentation is an item of the script, and
that it is ConcurrentCommand whatever the command is the model's choice (log 6). -/
def Obligations.RefusalReasonsAreExactlyFour : Prop :=
  (∀ q : RefusalReason, q = .reservedCommand ∨ q = .notInitialised ∨ q = .alreadyInitialised ∨ q = .concurrentCommand) ∧
  (∀ (i : Instr) (s : State), exec i s = present (blockExec i s)) ∧
  (∀ s : State, step s = present (blockStep s) ∧ ∀ r : Refusal, step s = .refused r → ∃ q, r = .reason q) ∧
  (∀ (k : Nat) (s : State), Host.Core.run Sys2Proof.core k s = present (run k s)) ∧
  (∀ (s : State) (q : RefusalReason), step s = .refused (.reason q) ↔
    (q = .concurrentCommand ∧ ∃ p rd rest, s.inbox = ⟨.commandEarly p, rd⟩ :: rest) ∨
    (∃ p rd rest, s.inbox = ⟨.command p, rd⟩ :: rest ∧
      ((q = .reservedCommand ∧ ∀ row ∈ opcodeTable, row.selects p.cmd = false) ∨
       (q = .notInitialised ∧ p.cmd = 0x02#8 ∧ s.initd = false) ∨
       (q = .alreadyInitialised ∧ p.cmd &&& 0xE7#8 = 0x01#8 ∧ s.initd = true))))

/-- A host that reads `TEMP_O` in the step of a command sees the value from before it, and after the step the port shows the new
value. How the model records the read is log 8. -/
def Obligations.TempOReadSeesTheValueBefore : Prop :=
  ∀ (s t : State) (p : InPorts) (rest : List HostStep), s.inbox = ⟨.command p, true⟩ :: rest → step s = .next t →
    t.tempRead = some s.temp ∧ t.tempO = t.temp

/-- Idempotence: a DECODE or an ENCODE run again in the state it left, with the same ports, gives the same response and changes
nothing. It follows from 41_decode.md R100 and 40_encode.md R80: neither reads what it writes. -/
def Obligations.RepeatedCommandChangesNothing : Prop :=
  (∀ s t : State, exec .decode s = .next t → exec .decode t = .next t) ∧
  (∀ s t : State, exec .encode s = .next t → exec .encode t = .next t)

/-- The spec's own inference that the reset value of `RES` cannot be observed (70_reset_and_hazards.md): from any state with
`INITD` = 0, another tag gives the same outcomes, equal in every field once INIT has run and in every other field before. -/
def Obligations.TagBeforeInitIsUnobservable : Prop :=
  ∀ (k : Nat) (s : State) (r : Tag), s.initd = false →
    (∀ t, run k s = .next t →
      (t.initd = true ∧ run k { s with res := r } = .next t) ∨
      (t.initd = false ∧ run k { s with res := r } = .next { t with res := r })) ∧
    (∀ q, run k s = .refused q → run k { s with res := r } = .refused q)

/-- A whole script of the host runs without a refusal exactly when the host keeps its duties: valid bytes, INIT once and before any
DECODE, no command before the previous one has completed (60_exceptions.md, 70_reset_and_hazards.md). The script is the model's form
of the host (log 1), and so is the early item that breaks the last duty (log 6). -/
def Obligations.ScriptCompletesExactlyWhenAdmitted : Prop :=
  ∀ s : State, (∃ t, run s.inbox.length s = .next t ∧ t.inbox = []) ↔ admitted s.initd s.inbox = true

/-! ### Encodings and notation -/

/-- Decoding and encoding agree: a byte decodes to a well-formed instruction exactly when it is that instruction's encoding, so
every operand value survives and no other byte decodes to it. -/
def Obligations.CommandByteRoundTrip : Prop :=
  ∀ (i : Instr) (b : Byte), i.wellFormed = true → (decodeCommand b = .ok i ↔ b = Sys2Proof.encode i)

/-- R63: the opcode table's rows are what the decoder reads, they are disjoint, and exactly six bytes select a row. -/
def Obligations.OpcodeTableRowsSelectSixBytes : Prop :=
  (∀ b : Byte, ∀ row ∈ opcodeTable, row.selects b = true ↔ ∃ i, decodeCommand b = .ok i ∧ i.row = row) ∧
  (∀ b : Byte, ∀ row ∈ opcodeTable, ∀ row' ∈ opcodeTable, row.selects b = true → row'.selects b = true → row = row') ∧
  (List.range 256).filter (fun n => opcodeTable.any fun row => row.selects (BitVec.ofNat 8 n)) =
    [0x01, 0x02, 0x03, 0x09, 0x11, 0x19]

/-- R66: the reserved bytes, as the rule lists them, are refused whatever the state and the other ports. -/
def Obligations.ReservedBytesAreRefused : Prop :=
  ∀ (s : State) (p : InPorts) (rd : Bool) (rest : List HostStep), s.inbox = ⟨.command p, rd⟩ :: rest →
    (p.cmd.extractLsb' 0 3 = 0#3 ∨ 4 ≤ (p.cmd.extractLsb' 0 3).toNat ∨ p.cmd.extractLsb' 5 3 ≠ 0#3 ∨
      (p.cmd.extractLsb' 3 2 ≠ 0#2 ∧ (p.cmd.extractLsb' 0 3 = 2#3 ∨ p.cmd.extractLsb' 0 3 = 3#3))) →
    step s = .refused (.reason .reservedCommand)

/-- Words written out from the encodings of 30_encoding.md decode to the commands they stand for. -/
def Obligations.WrittenOutBytesDecode : Prop :=
  decodeCommand 0b00000001 = .ok (.init 0#2) ∧ decodeCommand 0b00010001 = .ok (.init 2#2) ∧
  decodeCommand 0b00000010 = .ok .decode ∧ decodeCommand 0b00000011 = .ok .encode

/-- R11: a Celsius word holds every multiple of 1/256 in its range exactly, and every word is one. -/
def Obligations.CelsiusWordHoldsItsRangeExactly : Prop :=
  (∀ n : Int, -2 ^ 31 ≤ n → n ≤ 2 ^ 31 - 1 →
    cw ((n : Rat) / 256) = BitVec.ofInt 32 n ∧ cwVal (cw ((n : Rat) / 256)) = (n : Rat) / 256) ∧
  (∀ W : Celsius, cwVal W = (W.toInt : Rat) / 256 ∧ cw (cwVal W) = W) ∧
  cw (-1000) = 0xFFFC1800#32

/-- R69: `DECODE.FAIL` is byte 0x02 with `XOK` = 0, and the bytes that stand on the ports do not matter. -/
def Obligations.DecodeFailIsADecodeWithoutBytes : Prop :=
  (∀ base : InPorts, (drivePorts base .decodeFail).cmd = 0x02#8 ∧ (drivePorts base .decodeFail).xok = false) ∧
  (∀ (s : State) (base base' : InPorts),
    exec .decode (s.setInp (drivePorts base' .decodeFail)) =
      withInp (drivePorts base' .decodeFail) (exec .decode (s.setInp (drivePorts base .decodeFail))))
end

