-- ==== Sys2Proof/Laws/Operands.lean ====
section
/-! SUPPORT. What the operand functions compute, in plain integer terms; later proofs cite these. -/

namespace Sys2Proof.Machine

theorem inRange_iff (X : Int) : inRange X = true ↔ -14080 ≤ X ∧ X ≤ 32000 := by
  unfold inRange
  rw [Bool.and_eq_true, decide_eq_true_eq, decide_eq_true_eq]
  norm_num [Config.tMin, Config.tMax]

/-- Truncation toward zero by cases, in the division that `omega` knows. -/
theorem tdiv_256 (X : Int) : X.tdiv 256 = if X < 0 then -(-X / 256) else X / 256 := by
  split
  · rw [← Int.tdiv_eq_ediv_of_nonneg (by omega), Int.neg_tdiv, neg_neg]
  · rw [Int.tdiv_eq_ediv_of_nonneg (by omega)]

theorem truncDegrees_eq_tdiv (X : Int) : truncDegrees X = X.tdiv 256 := by
  rw [tdiv_256]
  unfold truncDegrees magnitudeDegrees
  split <;> omega

theorem lowByte_toNat (X : Int) : (lowByte X).toNat = if 128 ≤ X.natAbs % 256 then 128 else 0 := by
  unfold lowByte magnitudeFraction
  split <;> rfl

theorem raw_bit15 (raw : Raw) : raw.getLsbD 15 = decide (32768 ≤ raw.toNat) := by
  have h : raw.getLsbD 15 = raw.msb := by simp [BitVec.msb_eq_getLsbD_last]
  rw [h, BitVec.msb_eq_decide]

theorem raw_toInt (raw : Raw) : raw.toInt = if 32768 ≤ raw.toNat then (raw.toNat : Int) - 65536 else raw.toNat := by
  have := raw.isLt
  rw [BitVec.toInt_eq_toNat_cond]
  split <;> split <;> omega

theorem variantOf_eq_none (tag : Tag) : variantOf tag = none ↔ tag = 2#2 ∨ tag = 3#2 := by
  revert tag
  decide

theorem variantOf_eq_res9 (tag : Tag) : variantOf tag = some .res9 ↔ tag = 0#2 := by
  revert tag
  decide

theorem variantOf_eq_res11 (tag : Tag) : variantOf tag = some .res11 ↔ tag = 1#2 := by
  revert tag
  decide

/-- The two paths differ only by the sign bit's test. -/
theorem decodeCount_cases (v : Variant) (raw : Raw) :
    (raw.getLsbD 15 = false ∧ decodeCount v raw = countNonNegative v raw) ∨
    (raw.getLsbD 15 = true ∧ decodeCount v raw = countNegative v raw) := by
  unfold decodeCount
  cases raw.getLsbD 15 <;> simp

end Sys2Proof.Machine
end

