-- ==== Sys2Proof/Laws/State.lean ====
section
/-! SUPPORT. One lemma per field per update of the state, so that no later proof unfolds a record update, and the port views. -/

namespace Sys2Proof.Machine

@[simp] theorem State.setRes_res (s : State) (v : Tag) : (s.setRes v).res = v := rfl
@[simp] theorem State.setRes_initd (s : State) (v : Tag) : (s.setRes v).initd = s.initd := rfl
@[simp] theorem State.setRes_temp (s : State) (v : Tag) : (s.setRes v).temp = s.temp := rfl
@[simp] theorem State.setRes_inp (s : State) (v : Tag) : (s.setRes v).inp = s.inp := rfl
@[simp] theorem State.setRes_inbox (s : State) (v : Tag) : (s.setRes v).inbox = s.inbox := rfl
@[simp] theorem State.setRes_resp (s : State) (v : Tag) : (s.setRes v).resp = s.resp := rfl
@[simp] theorem State.setRes_tempRead (s : State) (v : Tag) : (s.setRes v).tempRead = s.tempRead := rfl

@[simp] theorem State.setInitd_res (s : State) (v : Bool) : (s.setInitd v).res = s.res := rfl
@[simp] theorem State.setInitd_initd (s : State) (v : Bool) : (s.setInitd v).initd = v := rfl
@[simp] theorem State.setInitd_temp (s : State) (v : Bool) : (s.setInitd v).temp = s.temp := rfl
@[simp] theorem State.setInitd_inp (s : State) (v : Bool) : (s.setInitd v).inp = s.inp := rfl
@[simp] theorem State.setInitd_inbox (s : State) (v : Bool) : (s.setInitd v).inbox = s.inbox := rfl
@[simp] theorem State.setInitd_resp (s : State) (v : Bool) : (s.setInitd v).resp = s.resp := rfl
@[simp] theorem State.setInitd_tempRead (s : State) (v : Bool) : (s.setInitd v).tempRead = s.tempRead := rfl

@[simp] theorem State.setTemp_res (s : State) (v : Celsius) : (s.setTemp v).res = s.res := rfl
@[simp] theorem State.setTemp_initd (s : State) (v : Celsius) : (s.setTemp v).initd = s.initd := rfl
@[simp] theorem State.setTemp_temp (s : State) (v : Celsius) : (s.setTemp v).temp = v := rfl
@[simp] theorem State.setTemp_inp (s : State) (v : Celsius) : (s.setTemp v).inp = s.inp := rfl
@[simp] theorem State.setTemp_inbox (s : State) (v : Celsius) : (s.setTemp v).inbox = s.inbox := rfl
@[simp] theorem State.setTemp_resp (s : State) (v : Celsius) : (s.setTemp v).resp = s.resp := rfl
@[simp] theorem State.setTemp_tempRead (s : State) (v : Celsius) : (s.setTemp v).tempRead = s.tempRead := rfl

@[simp] theorem State.setInp_res (s : State) (p : InPorts) : (s.setInp p).res = s.res := rfl
@[simp] theorem State.setInp_initd (s : State) (p : InPorts) : (s.setInp p).initd = s.initd := rfl
@[simp] theorem State.setInp_temp (s : State) (p : InPorts) : (s.setInp p).temp = s.temp := rfl
@[simp] theorem State.setInp_inp (s : State) (p : InPorts) : (s.setInp p).inp = p := rfl
@[simp] theorem State.setInp_inbox (s : State) (p : InPorts) : (s.setInp p).inbox = s.inbox := rfl
@[simp] theorem State.setInp_resp (s : State) (p : InPorts) : (s.setInp p).resp = s.resp := rfl
@[simp] theorem State.setInp_tempRead (s : State) (p : InPorts) : (s.setInp p).tempRead = s.tempRead := rfl

@[simp] theorem State.respond_res (s : State) (st : Status) (tx : Option (Byte × Byte)) : (s.respond st tx).res = s.res := rfl
@[simp] theorem State.respond_initd (s : State) (st : Status) (tx : Option (Byte × Byte)) : (s.respond st tx).initd = s.initd := rfl
@[simp] theorem State.respond_temp (s : State) (st : Status) (tx : Option (Byte × Byte)) : (s.respond st tx).temp = s.temp := rfl
@[simp] theorem State.respond_inp (s : State) (st : Status) (tx : Option (Byte × Byte)) : (s.respond st tx).inp = s.inp := rfl
@[simp] theorem State.respond_inbox (s : State) (st : Status) (tx : Option (Byte × Byte)) : (s.respond st tx).inbox = s.inbox := rfl
@[simp] theorem State.respond_resp (s : State) (st : Status) (tx : Option (Byte × Byte)) : (s.respond st tx).resp = some ⟨st, tx⟩ := rfl
@[simp] theorem State.respond_tempRead (s : State) (st : Status) (tx : Option (Byte × Byte)) : (s.respond st tx).tempRead = s.tempRead := rfl

@[simp] theorem State.beginStep_res (s : State) (rd : Bool) (rest : List HostStep) : (s.beginStep rd rest).res = s.res := rfl
@[simp] theorem State.beginStep_initd (s : State) (rd : Bool) (rest : List HostStep) : (s.beginStep rd rest).initd = s.initd := rfl
@[simp] theorem State.beginStep_temp (s : State) (rd : Bool) (rest : List HostStep) : (s.beginStep rd rest).temp = s.temp := rfl
@[simp] theorem State.beginStep_inp (s : State) (rd : Bool) (rest : List HostStep) : (s.beginStep rd rest).inp = s.inp := rfl
@[simp] theorem State.beginStep_inbox (s : State) (rd : Bool) (rest : List HostStep) : (s.beginStep rd rest).inbox = rest := rfl
@[simp] theorem State.beginStep_resp (s : State) (rd : Bool) (rest : List HostStep) : (s.beginStep rd rest).resp = none := rfl
@[simp] theorem State.beginStep_tempRead (s : State) (rd : Bool) (rest : List HostStep) : (s.beginStep rd rest).tempRead = if rd then some s.tempO else none := rfl

@[simp] theorem State.tempO_eq_temp (s : State) : s.tempO = s.temp := rfl
@[simp] theorem State.respond_stOut (s : State) (st : Status) (tx : Option (Byte × Byte)) :
    (s.respond st tx).stOut = some st.code := rfl
@[simp] theorem State.respond_txOut (s : State) (st : Status) (tx : Option (Byte × Byte)) : (s.respond st tx).txOut = tx := rfl
@[simp] theorem State.beginStep_stOut (s : State) (rd : Bool) (rest : List HostStep) : (s.beginStep rd rest).stOut = none := rfl
@[simp] theorem State.beginStep_txOut (s : State) (rd : Bool) (rest : List HostStep) : (s.beginStep rd rest).txOut = none := rfl
@[simp] theorem State.txvOut_false_txb0Out {s : State} (h : s.txvOut = false) : s.txb0Out = none := by
  simp_all [State.txvOut, State.txb0Out]
@[simp] theorem State.txvOut_false_txb1Out {s : State} (h : s.txvOut = false) : s.txb1Out = none := by
  simp_all [State.txvOut, State.txb1Out]

end Sys2Proof.Machine
end

