-- ==== Sys2Proof/Laws/Ops.lean ====
section
/-! SUPPORT. For each shared operation and each meaning, one lemma that says everything it can do; later proofs cite these instead of
unfolding. -/

namespace Sys2Proof.Machine

theorem present_next {o : BlockOutcome} {t : State} : present o = .next t ↔ o = .next t := by
  cases o <;> simp [present]

theorem present_refused {o : BlockOutcome} {r : Refusal} : present o = .refused r ↔ ∃ q, r = .reason q ∧ o = .refused q := by
  cases o <;> simp [present, eq_comm]

theorem finish_next {s t : State} {tx : Option (Byte × Byte)} : finish s tx = .next t ↔ t = s.respond .ok tx := by
  simp [finish, eq_comm]

theorem raise_next {s t : State} {st : Status} : raise s st = .next t ↔ t = s.respond st none := by
  simp [raise, eq_comm]

theorem failDecode_next {s t : State} {st : Status} :
    failDecode s st = .next t ↔ t = (s.setTemp Config.sentinel).respond st none := raise_next

theorem refuse_refused {q r : RefusalReason} : refuse q = .refused r ↔ r = q := by
  simp [refuse, eq_comm]

theorem present_refuse (q : RefusalReason) : present (refuse q) = .refused (.reason q) := rfl

theorem refuse_next {q : RefusalReason} {t : State} : refuse q ≠ .next t := by
  simp [refuse]

/-- INIT answers the next state exactly when it was not initialised. -/
theorem execInit_next {tag : Tag} {s t : State} :
    execInit tag s = .next t ↔ s.initd = false ∧ t = ((s.setRes tag).setInitd true).respond .ok none := by
  rw [execInit, present_next, blockInit]
  cases s.initd <;> simp [refuse, finish_next]

theorem execInit_refused {tag : Tag} {s : State} {r : Refusal} :
    execInit tag s = .refused r ↔ s.initd = true ∧ r = .reason .alreadyInitialised := by
  rw [execInit, present_refused, blockInit]
  cases s.initd <;> simp [refuse, finish, eq_comm]

/-- Everything DECODE can do when it answers a next state. -/
theorem execDecode_next {s t : State} :
    execDecode s = .next t ↔ s.initd = true ∧
      ((s.inp.xok = false ∧ t = (s.setTemp Config.sentinel).respond .transportError none) ∨
       (s.inp.xok = true ∧ variantOf s.res = none ∧ t = (s.setTemp Config.sentinel).respond .unsupportedVariant none) ∨
       (∃ v, s.inp.xok = true ∧ variantOf s.res = some v ∧
         t = (s.setTemp (decodeTemp v (rawOf s.inp))).respond .ok none)) := by
  rw [execDecode, present_next, blockDecode]
  cases s.initd <;> cases s.inp.xok <;> cases variantOf s.res <;> simp [refuse, finish_next, failDecode_next]

theorem execDecode_refused {s : State} {r : Refusal} :
    execDecode s = .refused r ↔ s.initd = false ∧ r = .reason .notInitialised := by
  rw [execDecode, present_refused, blockDecode]
  cases s.initd <;> cases s.inp.xok <;> cases variantOf s.res <;>
    simp [refuse, finish, failDecode, raise, eq_comm]

/-- ENCODE always answers a next state, and writes nothing but the response. -/
theorem execEncode_eq (s : State) :
    execEncode s = .next (if inRange (dinUnits s.inp) = true then s.respond .ok (some (encodeBytes (dinUnits s.inp)))
      else s.respond .invalidRange none) := by
  unfold execEncode blockEncode
  cases inRange (dinUnits s.inp) <;> simp [finish, raise, present]

/-- Everything the block can find on the ports of one step. -/
theorem fetch_cases (s : State) :
    (s.inbox = [] ∧ fetch s = .waiting (s.beginStep false [])) ∨
    (∃ rd rest, s.inbox = ⟨.wait, rd⟩ :: rest ∧ fetch s = .waiting (s.beginStep rd rest)) ∨
    (∃ p rd rest, s.inbox = ⟨.commandEarly p, rd⟩ :: rest ∧ fetch s = .refuse .concurrentCommand) ∨
    (∃ p rd rest e, s.inbox = ⟨.command p, rd⟩ :: rest ∧ decodeCommand p.cmd = .error e ∧
      fetch s = .refuse .reservedCommand) ∨
    (∃ p rd rest i, s.inbox = ⟨.command p, rd⟩ :: rest ∧ decodeCommand p.cmd = .ok i ∧
      fetch s = .command i ((s.beginStep rd rest).setInp p)) := by
  unfold fetch
  rcases s.inbox with _ | ⟨⟨_ | p | p, rd⟩, rest⟩
  · exact .inl ⟨rfl, rfl⟩
  · exact .inr (.inl ⟨rd, rest, rfl, rfl⟩)
  · cases h : decodeCommand p.cmd with
    | error e => exact .inr (.inr (.inr (.inl ⟨p, rd, rest, e, rfl, h, by simp [decodePresented, h]⟩)))
    | ok i => exact .inr (.inr (.inr (.inr ⟨p, rd, rest, i, rfl, h, by simp [decodePresented, h]⟩)))
  · exact .inr (.inr (.inl ⟨p, rd, rest, rfl, rfl⟩))

/-- Whatever stood in the host's script, a placed byte is the command of the next step. -/
theorem placeCommand_inbox (s : State) (b : Byte) :
    ∃ p rd rest, (placeCommand s b).inbox = ⟨.command p, rd⟩ :: rest ∧ p.cmd = b := by
  unfold placeCommand
  rcases s.inbox with _ | ⟨⟨_ | p | p, rd⟩, rest⟩ <;> exact ⟨_, _, _, rfl, rfl⟩

/-- Placing a byte changes nothing but the script. -/
theorem placeCommand_frame (s : State) (b : Byte) :
    ∃ l, placeCommand s b = { s with inbox := l } := by
  unfold placeCommand
  rcases s.inbox with _ | ⟨⟨_ | p | p, rd⟩, rest⟩ <;> exact ⟨_, rfl⟩

end Sys2Proof.Machine
end

