-- ==== Sys2Proof/Laws/PerInstr.lean ====
section
/-! SUPPORT. The family made per instruction: an instruction is well-formed, and its encoding selects its row of the opcode table
(spec/30_encoding.md R63). -/

namespace Sys2Proof.Laws.EncodesInItsRow

/-- The instruction is well-formed, its row is in the table, and its command byte selects that row and no other. -/
def Statement (i : Instr) : Prop :=
  i.wellFormed = true ∧ i.row ∈ opcodeTable ∧ ∀ row ∈ opcodeTable, row.selects (encode i) = true ↔ row = i.row

theorem init (tag : Tag) : Statement (.init tag) := by
  revert tag
  unfold Statement
  decide

theorem decode : Statement .decode := by
  unfold Statement
  decide

theorem encode : Statement .encode := by
  unfold Statement
  decide

end Sys2Proof.Laws.EncodesInItsRow
end

