-- ==== Sys2Proof/Laws/Step.lean ====
section
/-! SUPPORT. Inversion of `exec` and `step`: everything an instruction or a step can do when it answers a next state, and the unfolding of
a run. Later proofs derive invariants and frames from these. -/

namespace Sys2Proof.Machine

/-- `exec` is the block's command seen through the host's interface. -/
theorem exec_eq_present (i : Instr) (s : State) : exec i s = present (blockExec i s) := by
  cases i <;> rfl

/-- Everything an instruction can do when it answers a next state. -/
theorem exec_cases {i : Instr} {s t : State} (h : exec i s = .next t) :
    (∃ tag, i = .init tag ∧ s.initd = false ∧ t = ((s.setRes tag).setInitd true).respond .ok none) ∨
    (i = .decode ∧ s.initd = true ∧ s.inp.xok = false ∧
      t = (s.setTemp Config.sentinel).respond .transportError none) ∨
    (i = .decode ∧ s.initd = true ∧ s.inp.xok = true ∧ variantOf s.res = none ∧
      t = (s.setTemp Config.sentinel).respond .unsupportedVariant none) ∨
    (∃ v, i = .decode ∧ s.initd = true ∧ s.inp.xok = true ∧ variantOf s.res = some v ∧
      t = (s.setTemp (decodeTemp v (rawOf s.inp))).respond .ok none) ∨
    (i = .encode ∧ inRange (dinUnits s.inp) = true ∧ t = s.respond .ok (some (encodeBytes (dinUnits s.inp)))) ∨
    (i = .encode ∧ inRange (dinUnits s.inp) = false ∧ t = s.respond .invalidRange none) := by
  cases i with
  | init tag => exact .inl ⟨tag, rfl, execInit_next.1 h⟩
  | decode =>
    obtain ⟨hi, ⟨hx, ht⟩ | ⟨hx, hv, ht⟩ | ⟨v, hx, hv, ht⟩⟩ := execDecode_next.1 h
    · exact .inr (.inl ⟨rfl, hi, hx, ht⟩)
    · exact .inr (.inr (.inl ⟨rfl, hi, hx, hv, ht⟩))
    · exact .inr (.inr (.inr (.inl ⟨v, rfl, hi, hx, hv, ht⟩)))
  | encode =>
    have h : execEncode s = .next t := h
    rw [execEncode_eq] at h
    cases hr : inRange (dinUnits s.inp) <;> simp [hr] at h <;> simp [h]

/-- `step` is the block's step seen through the host's interface. -/
theorem step_eq_present (s : State) : step s = present (blockStep s) := by
  unfold step blockStep
  cases fetch s with
  | waiting t => rfl
  | refuse q => rfl
  | command i t => exact exec_eq_present i t

/-- Everything a step can do when it answers a next state: wait, or run the presented command. -/
theorem step_cases {s t : State} (h : step s = .next t) :
    (∃ rd, t = s.beginStep rd s.inbox.tail ∧ ∀ p rd' rest, s.inbox ≠ ⟨.command p, rd'⟩ :: rest) ∨
    (∃ p rd rest i, s.inbox = ⟨.command p, rd⟩ :: rest ∧ decodeCommand p.cmd = .ok i ∧
      exec i ((s.beginStep rd rest).setInp p) = .next t) := by
  unfold step at h
  rcases fetch_cases s with ⟨hi, hf⟩ | ⟨rd, rest, hi, hf⟩ | ⟨p, rd, rest, hi, hf⟩ | ⟨p, rd, rest, e, hi, hd, hf⟩ |
    ⟨p, rd, rest, i, hi, hd, hf⟩ <;> rw [hf] at h
  · cases h
    exact .inl ⟨false, by simp [hi], by simp [hi]⟩
  · cases h
    exact .inl ⟨rd, by simp [hi], by simp [hi]⟩
  · cases h
  · cases h
  · exact .inr ⟨p, rd, rest, i, hi, hd, h⟩

/-- Everything a refused step can be: an early command, a reserved byte, or a meaning's own refusal. -/
theorem step_refused_cases {s : State} {r : Refusal} (h : step s = .refused r) :
    (∃ p rd rest, s.inbox = ⟨.commandEarly p, rd⟩ :: rest ∧ r = .reason .concurrentCommand) ∨
    (∃ p rd rest, s.inbox = ⟨.command p, rd⟩ :: rest ∧
      ((∃ e, decodeCommand p.cmd = .error e ∧ r = .reason .reservedCommand) ∨
       (∃ tag, decodeCommand p.cmd = .ok (.init tag) ∧ s.initd = true ∧ r = .reason .alreadyInitialised) ∨
       (decodeCommand p.cmd = .ok .decode ∧ s.initd = false ∧ r = .reason .notInitialised))) := by
  unfold step at h
  rcases fetch_cases s with ⟨hi, hf⟩ | ⟨rd, rest, hi, hf⟩ | ⟨p, rd, rest, hi, hf⟩ | ⟨p, rd, rest, e, hi, hd, hf⟩ |
    ⟨p, rd, rest, i, hi, hd, hf⟩ <;> rw [hf] at h
  · cases h
  · cases h
  · exact .inl ⟨p, rd, rest, hi, by simpa [present_refuse, eq_comm] using h⟩
  · exact .inr ⟨p, rd, rest, hi, .inl ⟨e, hd, by simpa [present_refuse, eq_comm] using h⟩⟩
  · refine .inr ⟨p, rd, rest, hi, .inr ?_⟩
    cases i with
    | init tag => exact .inl ⟨tag, hd, execInit_refused (s := (s.beginStep rd rest).setInp p) |>.1 h⟩
    | decode => exact .inr ⟨hd, execDecode_refused (s := (s.beginStep rd rest).setInp p) |>.1 h⟩
    | encode =>
      have h : execEncode _ = .refused r := h
      rw [execEncode_eq] at h
      cases h

/-- An instruction does not touch the host's script, the input ports or what the host read. -/
theorem exec_frame {i : Instr} {s t : State} (h : exec i s = .next t) :
    t.inbox = s.inbox ∧ t.inp = s.inp ∧ t.tempRead = s.tempRead := by
  rcases exec_cases h with ⟨_, -, -, rfl⟩ | ⟨-, -, -, rfl⟩ | ⟨-, -, -, -, rfl⟩ | ⟨_, -, -, -, -, rfl⟩ | ⟨-, -, rfl⟩ |
    ⟨-, -, rfl⟩ <;> exact ⟨rfl, rfl, rfl⟩

/-- A step consumes exactly one item of the host's script. -/
theorem step_inbox {s t : State} (h : step s = .next t) : t.inbox = s.inbox.tail := by
  rcases step_cases h with ⟨rd, rfl, -⟩ | ⟨p, rd, rest, i, hi, -, h⟩
  · rfl
  · rw [hi, (exec_frame h).1]
    rfl

@[simp] theorem run_zero (s : State) : run 0 s = .next s := rfl

/-- The block's step and the interface's step answer the same next states. -/
theorem blockStep_next {s t : State} : blockStep s = .next t ↔ step s = .next t := by
  rw [step_eq_present, present_next]

/-- The block's step and the interface's step are refused for the same reasons. -/
theorem blockStep_refused {s : State} {q : RefusalReason} : blockStep s = .refused q ↔ step s = .refused (.reason q) := by
  rw [step_eq_present, present_refused]
  simp

theorem run_succ_next {k : Nat} {s t : State} (h : step s = .next t) : run (k + 1) s = run k t := by
  simp only [run, blockStep_next.2 h]

theorem run_succ_refused {k : Nat} {s : State} {q : RefusalReason} (h : step s = .refused (.reason q)) :
    run (k + 1) s = .refused q := by
  simp only [run, blockStep_refused.2 h]

/-- A step moves on, or is refused for one of the four reasons. -/
theorem step_total (s : State) : (∃ t, step s = .next t) ∨ ∃ q, step s = .refused (.reason q) := by
  rw [step_eq_present]
  cases blockStep s with
  | next t => exact .inl ⟨t, rfl⟩
  | fault q => cases q
  | refused q => exact .inr ⟨q, rfl⟩

/-- Whatever the step function, a run that has stopped at a refusal stays there. -/
theorem run_refused_add {k : Nat} {s : State} {q : RefusalReason} (h : run k s = .refused q) (j : Nat) :
    run (k + j) s = .refused q := by
  induction k generalizing s with
  | zero => cases h
  | succ k ih =>
    rw [Nat.succ_add]
    rcases step_total s with ⟨t, hs⟩ | ⟨r, hs⟩
    · rw [run_succ_next hs] at h ⊢
      exact ih h
    · rw [run_succ_refused hs] at h ⊢
      exact h

/-- A relation that every state has to itself and that a step in front keeps holds between the ends of every run. -/
theorem run_rel {P : State → State → Prop} (refl : ∀ s, P s s)
    (head : ∀ s t u, step s = .next t → P t u → P s u) :
    ∀ k s t, run k s = .next t → P s t := by
  intro k
  induction k with
  | zero =>
    intro s t h
    cases h
    exact refl s
  | succ k ih =>
    intro s t h
    rcases step_total s with ⟨u, hs⟩ | ⟨q, hs⟩
    · exact head s u t hs (ih u t (run_succ_next hs ▸ h))
    · simp [run_succ_refused hs] at h

theorem core_run_succ (M : Host.Core) (k : Nat) (s : M.State) :
    M.run (k + 1) s =
      match M.step s with
      | .next t => M.run k t
      | .fault r => .fault r
      | .refused r => .refused r := rfl

/-- A run of the machine behind the host's interface is a run of the block seen through that interface. -/
theorem core_run_eq_present (k : Nat) (s : State) : Host.Core.run Sys2Proof.core k s = present (run k s) := by
  induction k generalizing s with
  | zero => rfl
  | succ k ih =>
    refine (core_run_succ Sys2Proof.core k s).trans ?_
    rcases step_total s with ⟨t, hs⟩ | ⟨q, hs⟩
    · have hc : Sys2Proof.core.step s = .next t := hs
      rw [hc, run_succ_next hs]
      exact ih t
    · have hc : Sys2Proof.core.step s = .refused (.reason q) := hs
      rw [hc, run_succ_refused hs]
      rfl

end Sys2Proof.Machine
end

