-- ==== Sys2Proof/Machine/Environment.lean ====
section
/-! DEFINITION. Facts about the block's environment that the spec writes down (spec/20_memory.md R41 to R44, R47). The sensor, the
bus and the façade are out of scope (spec/00_scope.md R6): no step of the machine uses these, and none of them gives the sensor
a behaviour (log 13). -/

namespace Sys2Proof.Machine

/-- The sensor's four registers (R41). -/
inductive SensorReg where
  | temperature
  | configuration
  | hysteresis
  | overTemperatureShutdown
deriving DecidableEq, Repr

/-- Its address in the sensor's 8-bit register space (R41). -/
def SensorReg.address : SensorReg → Byte
  | .temperature => 0x00
  | .configuration => 0x01
  | .hysteresis => 0x02
  | .overTemperatureShutdown => 0x03

/-- Its width in bytes (R41, R48). -/
def SensorReg.widthBytes : SensorReg → Nat
  | .temperature => 2
  | .configuration => 1
  | .hysteresis => 2
  | .overTemperatureShutdown => 2

/-- The temperature-family registers, whose values DECODE applies to (R41). -/
def SensorReg.temperatureFamily : SensorReg → Bool
  | .temperature => true
  | .configuration => false
  | .hysteresis => true
  | .overTemperatureShutdown => true

/-- The threshold registers, which ENCODE's bytes are written to (R41). -/
def SensorReg.threshold : SensorReg → Bool
  | .temperature => false
  | .configuration => false
  | .hysteresis => true
  | .overTemperatureShutdown => true

/-- The fields of the configuration byte that the source gives (R42). It does not give bits 1, 6 and 7. -/
structure ConfigurationFields where
  shutdown : Bool
  alarmPolarity : Bool
  faultQueue : BitVec 2
  alarmMode : Bool
deriving DecidableEq, Repr

/-- Where those fields stand: bit 0, bit 2, bits 4:3 and bit 5 (R42). -/
def configurationFields (b : Byte) : ConfigurationFields :=
  ⟨b.getLsbD 0, b.getLsbD 2, b.extractLsb' 3 2, b.getLsbD 5⟩

/-- The transport's device address: "the caller-supplied 7-bit address left-shifted by one bit" (R43). -/
def transportAddress (address : BitVec 7) : Byte := address ++ 0#1

/-- One transfer from a temperature-family register: complete, or failed. A transfer that cannot deliver both bytes is a
failed one (R47). -/
inductive Transfer where
  | complete (first second : Byte)
  | failed
deriving DecidableEq, Repr

/-- A register value on the bus: the first byte transferred is the high byte (R44). -/
def transferOf (raw : Raw) : Transfer := .complete (raw.extractLsb' 8 8) (raw.extractLsb' 0 8)

/-- What the transport gives the block: `XOK`, and both bytes of one transfer (R31, R47). After a failed one the bytes do not
matter (R104) and keep their values. -/
def receive (p : InPorts) : Transfer → InPorts
  | .complete first second => { p with rxb0 := first, rxb1 := second, xok := true }
  | .failed => { p with xok := false }

end Sys2Proof.Machine
end

