-- ==== Sys2Proof/Tests/Slice0.lean ====
section
/-! SUPPORT. The model's own tests. Expected values are the spec's: the words of 30_encoding.md R63, the vectors of 95_test_vectors.md
(named X, T-D, T-E, T-I, T-C), the tables of 00_scope.md R7 and 60_exceptions.md R140. Then one witness per statement that has
hypotheses. -/

open Sys2Proof Sys2Proof.Machine

namespace Sys2Proof.Tests

/-- A small state: `RES`, `INITD`, `TEMP` and the ports, with nothing presented. -/
def block (res : Tag) (initd : Bool) (temp : Celsius) (inp : InPorts) : State :=
  { State.reset with res := res, initd := initd, temp := temp, inp := inp }

/-- The ports of a DECODE of two bytes. -/
def rx (b0 b1 : Byte) : InPorts := ⟨0x02, 0, b0, b1, true⟩

/-- The ports of a DECODE whose transfer failed. -/
def rxFail : InPorts := ⟨0x02, 0, 0x19, 0x00, false⟩

/-- The ports of an ENCODE. -/
def tx (din : Celsius) : InPorts := ⟨0x03, din, 0, 0, false⟩

/-- The ports of a command byte alone. -/
def byte (b : Byte) : InPorts := ⟨b, 0, 0, 0, false⟩

/-- A state in which the host presents one command. -/
def presenting (s : State) (p : InPorts) : State := { s with inbox := [⟨.command p, false⟩] }

/-- What a test reads of an outcome: `TEMP` and the response, or the refusal. -/
def seen : Host.Outcome State Fault Refusal → Option (Celsius × Option Response) × Option RefusalReason
  | .next t => (some (t.temp, t.resp), none)
  | .fault _ => (none, none)
  | .refused r => (none, r.reason?)

/-- The next state of an outcome. -/
def nextOf {ρ : Type} : Host.Outcome State Fault ρ → Option State
  | .next t => some t
  | .fault _ => none
  | .refused _ => none

/-! ### WellFormed: one ill-formed command per check (R66) -/

theorem test_wf_refuses_reserved_opcode_zero : CommandFields.wellFormed ⟨0#3, 0#2, 0#3⟩ = false := by decide
theorem test_wf_refuses_reserved_opcode_four : CommandFields.wellFormed ⟨0#3, 0#2, 4#3⟩ = false := by decide
theorem test_wf_refuses_z_field : CommandFields.wellFormed ⟨1#3, 0#2, 1#3⟩ = false := by decide
theorem test_wf_refuses_decode_with_r : CommandFields.wellFormed ⟨0#3, 1#2, 2#3⟩ = false := by decide
theorem test_wf_refuses_encode_with_r : CommandFields.wellFormed ⟨0#3, 1#2, 3#3⟩ = false := by decide
theorem test_wf_accepts_init_with_any_r : CommandFields.wellFormed ⟨0#3, 3#2, 1#3⟩ = true := by decide

/-! ### Decoding: words written out bit by bit from R63 -/

theorem test_decode_init_res9 : (decodeCommand 0b00000001).toOption = some (.init 0b00) := by decide
theorem test_decode_init_res11 : (decodeCommand 0b00001001).toOption = some (.init 0b01) := by decide
theorem test_decode_init_tag2 : (decodeCommand 0b00010001).toOption = some (.init 0b10) := by decide
theorem test_decode_init_tag3 : (decodeCommand 0b00011001).toOption = some (.init 0b11) := by decide
theorem test_decode_decode : (decodeCommand 0b00000010).toOption = some .decode := by decide
theorem test_decode_encode : (decodeCommand 0b00000011).toOption = some .encode := by decide

/-- T-C1 to T-C6, each refused by the name of its case of R66. -/
theorem test_reserved_bytes :
    [0x00, 0x04, 0x0A, 0x0B, 0x21, 0xFF].map (fun b : Byte => match decodeCommand b with
      | .ok _ => none
      | .error e => some e) =
    [some .opcode, some .opcode, some .rField, some .rField, some .zField, some .zField] := by decide

theorem test_table_word_init : decodeTableWord 8 0x09 = some (.init 1#2) := by decide
theorem test_table_word_of_other_length : decodeTableWord 16 0x09 = none := by decide

/-! ### Reset and the step -/

theorem test_reset_waits : nextOf (step State.reset) = some State.reset := by decide
theorem test_placed_init_runs_first :
    nextOf (step (State.reset.withFetchWord 8 0x09)) =
      some { State.reset with res := 1#2, initd := true, resp := some ⟨.ok, none⟩, inp := byte 0x09 } := by decide
theorem test_placed_encode_runs_first :
    seen (step (State.reset.withFetchWord 8 0x03)) = (some (0#32, some ⟨.ok, some (0#8, 0#8)⟩), none) := by decide
/-- T-D44 and program P5: DECODE as the first command after reset is refused. -/
theorem test_placed_decode_is_refused_first :
    seen (step (State.reset.withFetchWord 8 0x02)) = (none, some .notInitialised) := by decide
theorem test_reserved_byte_refused :
    seen (step (presenting State.reset (byte 0x0A))) = (none, some .reservedCommand) := by decide
theorem test_early_command_refused :
    seen (step { State.reset with inbox := [⟨.commandEarly (tx 0#32), false⟩] }) = (none, some .concurrentCommand) := by
  decide

/-! ### INIT -/

/-- T-I3: an unsupported tag is stored and reported OK. -/
theorem test_init_stores_unsupported_tag :
    nextOf (exec (.init 2#2) State.reset) =
      some { State.reset with res := 2#2, initd := true, resp := some ⟨.ok, none⟩ } := by decide
/-- T-I5. -/
theorem test_init_again_refused :
    seen (exec (.init 1#2) (block 0#2 true 0#32 (byte 0x09))) = (none, some .alreadyInitialised) := by decide

/-! ### DECODE -/

/-- T-D2, T-D9, T-D10, T-D12, T-D14, T-D17: under RES9. -/
theorem test_decode_vectors_res9 :
    [(0x00, 0x7F), (0x7F, 0xFF), (0x80, 0x00), (0xE6, 0xE0), (0xF6, 0x80), (0xFF, 0xFF)].map
      (fun b : Byte × Byte => seen (exec .decode (block 0#2 true 0#32 (rx b.1 b.2)))) =
    [0x00000000, 0x00007F80, 0xFFFF8000, 0xFFFFE680, 0xFFFFF680, 0xFFFFFF80].map
      (fun T : Celsius => (some (T, some ⟨.ok, none⟩), none)) := by decide
/-- T-D23, T-D25 (X3), T-D27, T-D28, T-D30, T-D33: under RES11. -/
theorem test_decode_vectors_res11 :
    [(0x00, 0x7F), (0x48, 0x00), (0x7F, 0xFF), (0x80, 0x00), (0xE6, 0xE0), (0xFF, 0xFF)].map
      (fun b : Byte × Byte => seen (exec .decode (block 1#2 true 0#32 (rx b.1 b.2)))) =
    [0x00000060, 0x00004800, 0x00007FE0, 0xFFFF8000, 0xFFFFE6E0, 0xFFFFFFE0].map
      (fun T : Celsius => (some (T, some ⟨.ok, none⟩), none)) := by decide
/-- T-D40 (X6), T-D41, T-D42, T-D43, T-D45. -/
theorem test_decode_failures :
    [seen (exec .decode (block 0#2 true 0#32 rxFail)), seen (exec .decode (block 2#2 true 0#32 (rx 0x19 0x00))),
      seen (exec .decode (block 3#2 true 0#32 (rx 0x00 0x00))), seen (exec .decode (block 3#2 true 0#32 rxFail)),
      seen (exec .decode (block 1#2 true 0xFFFC1800 (rx 0x19 0x00)))] =
    [(some (0xFFFC1800, some ⟨.transportError, none⟩), none), (some (0xFFFC1800, some ⟨.unsupportedVariant, none⟩), none),
      (some (0xFFFC1800, some ⟨.unsupportedVariant, none⟩), none), (some (0xFFFC1800, some ⟨.transportError, none⟩), none),
      (some (0x00001900, some ⟨.ok, none⟩), none)] := by decide

/-! ### ENCODE -/

/-- T-E1 (X1), T-E2 (X2), T-E5, T-E7, T-E11, T-E13, T-E14, T-E15, T-E17, T-E19, T-E20. -/
theorem test_encode_vectors :
    [0x00001980, 0x00001940, 0x00007D00, 0xFFFFC900, 0xFFFFF580, 0xFFFFFF80, 0xFFFFC980, 0xFFFFF5C0, 0x0000007F,
      0x00007CFF, 0xFFFFFF00].map (fun d : Celsius => seen (exec .encode (block 0#2 false 7#32 (tx d)))) =
    [(0x19, 0x80), (0x19, 0x00), (0x7D, 0x00), (0xC9, 0x00), (0xF6, 0x80), (0x00, 0x80), (0xCA, 0x80), (0xF6, 0x00),
      (0x00, 0x00), (0x7C, 0x80), (0xFF, 0x00)].map
      (fun b : Byte × Byte => (some (7#32, some ⟨.ok, some b⟩), none)) := by decide
/-- T-E6, T-E8, T-E9, T-E10, T-E22 (X4), T-E23 (X5). -/
theorem test_encode_rejections :
    [0x00007D01, 0xFFFFC8FF, 0x80000000, 0x7FFFFFFF, 0x00008200, 0xFFFFC400].map
      (fun d : Celsius => seen (exec .encode (block 2#2 true 7#32 (tx d)))) =
    List.replicate 6 (some (7#32, some ⟨.invalidRange, none⟩), none) := by decide

/-! ### Ports, parameters and environment facts -/

/-- R140's codes. -/
theorem test_status_codes :
    [Status.ok, .invalidRange, .unsupportedVariant, .transportError].map Status.code = [0b00, 0b01, 0b10, 0b11] := by decide
/-- R7: SENTINEL is −1000.0 °C. -/
theorem test_sentinel_word : Config.sentinel.toInt = Config.sentinelDegrees * 256 := by decide
/-- R30: without encoded bytes `TXV` = 0 and the bytes have no value; T-E1's ports otherwise. -/
theorem test_output_ports :
    (State.reset.txvOut, State.reset.txb0Out, State.reset.stOut) = (false, none, none) ∧
    (nextOf (exec .encode (block 0#2 false 0#32 (tx 0x00001980)))).map
      (fun t => (t.stOut, t.txvOut, t.txb0Out, t.txb1Out)) = some (some 0b00, true, some 0x19, some 0x80) := by decide
/-- R176: a read of `TEMP_O` in the step of a DECODE sees the old value. -/
theorem test_tempO_read_in_decode_step :
    (nextOf (step { block 1#2 true 5#32 (byte 0) with inbox := [⟨.command (rx 0x48 0x00), true⟩] })).map
      (fun t => (t.tempRead, t.tempO)) = some (some 5#32, 0x00004800) := by decide
/-- R41, R43, R44: addresses, the shifted device address, and a register value that crosses the bus and is assembled again. -/
theorem test_environment_facts :
    [SensorReg.temperature, .configuration, .hysteresis, .overTemperatureShutdown].map
      (fun r => (r.address, r.widthBytes)) = [(0x00, 2), (0x01, 1), (0x02, 2), (0x03, 2)] ∧
    transportAddress 0x48#7 = 0x90#8 ∧ rawOf (receive (byte 0) (transferOf 0xE6E0)) = 0xE6E0 ∧
    configurationFields 0b00011001 = ⟨true, false, 0b11, false⟩ := by decide

/-! ### Assembler lines (R68, R69; programs P1 to P3) -/

theorem test_asm_init : parseLine ['I', 'N', 'I', 'T', ' ', ' ', 'R', 'E', 'S', '1', '1', ' ', ';', 'x'] = .line (.init 1#2) := by
  decide
theorem test_asm_decode :
    parseLine ['d', 'e', 'c', 'o', 'd', 'e', ' ', '0', 'x', 'E', '6', ',', ' ', '0', 'x', 'e', '0'] =
      .line (.decode 0xE6 0xE0) := by decide
theorem test_asm_encode_decimal :
    celsiusOperand ['-', '1', '0', '.', '5'] = some 0xFFFFF580 ∧
    parseLine ['E', 'N', 'C', 'O', 'D', 'E', ' ', '7', '2'] = .line (.encode 0x00004800) := by decide
theorem test_asm_encode_hex :
    parseLine ['E', 'N', 'C', 'O', 'D', 'E', ' ', '0', 'x', '8', '0', '0', '0', '0', '0', '0', '0'] =
      .line (.encode 0x80000000) := by decide
theorem test_asm_encode_needs_a_multiple :
    parseLine ['E', 'N', 'C', 'O', 'D', 'E', ' ', '0', '.', '1'] = .malformed := by decide
theorem test_asm_decode_fail :
    parseLine ['D', 'E', 'C', 'O', 'D', 'E', '.', 'F', 'A', 'I', 'L'] = .line .decodeFail ∧
    parseLine [' ', ';', ' ', 'x'] = .blank ∧
    parseProgram [['i', 'n', 'i', 't', ' ', 'T', 'A', 'G', '2'], [], ['E', 'N', 'C', 'O', 'D', 'E', ' ', '0', '.', '5']] =
      some [.init 2#2, .encode 0x00000080] ∧ drivePorts (rx 1 2) .decodeFail = ⟨0x02, 0, 1, 2, false⟩ := by decide

/-! ### Witnesses: a state and operands that meet the hypotheses of each statement -/

theorem reset_inv : State.reset.Inv :=
  ⟨fun _ => ⟨rfl, rfl⟩, .inr (.inl rfl), fun _ h => nomatch h⟩

theorem test_wit_EveryStepKeepsTheInvariant :
    ∃ s t : State, s.Inv ∧ step s = .next t ∧ t ≠ s :=
  ⟨presenting State.reset (byte 0x09), _, ⟨fun _ => ⟨rfl, rfl⟩, .inr (.inl rfl), fun _ h => nomatch h⟩, rfl, by decide⟩

theorem test_wit_BlockWaitsWithoutACommand :
    State.reset.inbox = [] ∧ ({ State.reset with inbox := [⟨.wait, false⟩] } : State).inbox = ⟨.wait, false⟩ :: [] ∧
    ({ block 1#2 true 5#32 (byte 0) with inbox := [⟨.wait, true⟩] } : State).inbox = ⟨.wait, true⟩ :: [] := by
  decide

theorem test_wit_StepRunsTheDecodedCommand :
    (presenting State.reset (tx 0x00001980)).inbox = ⟨.command (tx 0x00001980), false⟩ :: [] ∧
    decodeCommand (tx 0x00001980).cmd = .ok .encode ∧ Instr.wellFormed .encode = true := ⟨rfl, rfl, by decide⟩

/-- A word, and a script of each of the four forms it may be placed on. -/
theorem test_wit_PlacedWordRunsNext :
    decodeTableWord 8 0x19 = some (.init 3#2) ∧ decodeTableWord 8 0x03 = some .encode ∧ State.reset.inbox = [] ∧
    ({ State.reset with inbox := [⟨.wait, true⟩] } : State).inbox = ⟨.wait, true⟩ :: [] ∧
    (presenting State.reset (tx 0x00001980)).inbox = ⟨.command (tx 0x00001980), false⟩ :: [] ∧
    ({ State.reset with inbox := [⟨.commandEarly (tx 7#32), true⟩] } : State).inbox = ⟨.commandEarly (tx 7#32), true⟩ :: [] := by
  decide

theorem test_wit_CommandsTakeEffectInOrder :
    (nextOf (run 1 { State.reset with inbox := [⟨.command (byte 0x01), false⟩] })).isSome = true := by decide

theorem test_wit_InitStoresTheTagUnchecked :
    State.reset.initd = false ∧ (block 0#2 true 0#32 (byte 1)).initd = true ∧
    (nextOf (exec (.init 1#2) State.reset)).isSome = true := by decide

theorem test_wit_TempHeldUntilTheFirstDecode :
    (nextOf (exec (.init 1#2) State.reset)).isSome = true ∧
    decodeFree [⟨.command (byte 0x01), false⟩, ⟨.command (tx 0#32), true⟩] = true ∧
    (nextOf (run 2 { State.reset with
      inbox := [⟨.command (byte 0x01), false⟩, ⟨.command (tx 0#32), true⟩] })).isSome = true := by decide

theorem test_wit_ResWrittenOnceByInit :
    (nextOf (step (presenting State.reset (byte 0x19)))).map State.res = some 3#2 ∧ State.reset.res = 0#2 ∧
    (nextOf (run 1 (presenting (block 1#2 true 0#32 (byte 0)) (rx 0x19 0x00)))).isSome = true := by decide

theorem test_wit_InitdSetByInitAndNeverCleared :
    State.reset.initd = false ∧ (nextOf (step (presenting State.reset (byte 0x01)))).map State.initd = some true ∧
    (nextOf (run 1 (presenting (block 1#2 true 0#32 (byte 0)) rxFail))).isSome = true ∧
    (nextOf (exec .decode (block 2#2 true 0#32 (rx 1 2)))).isSome = true := by decide

/-- The boundary of the two paths: 0x7FFF is the last of the non-negative one, 0x8000 the first of the negative one. -/
theorem test_wit_DecodeNonNegativePath :
    (rawOf (rx 0x7F 0xFF)).getLsbD 15 = false ∧ (rx 0x7F 0xFF).xok = true ∧
    (block 0#2 true 0#32 (rx 0x7F 0xFF)).res = 0#2 ∧ (block 1#2 true 0#32 (rx 0x7F 0xFF)).res = 1#2 ∧
    (block 0#2 true 0#32 (rx 0x7F 0xFF)).initd = true := by decide

theorem test_wit_DecodeNegativePath :
    (rawOf (rx 0x80 0x00)).getLsbD 15 = true ∧ (rx 0x80 0x00).xok = true ∧
    (block 0#2 true 0#32 (rx 0x80 0x00)).res = 0#2 ∧ (block 1#2 true 0#32 (rx 0x80 0x00)).res = 1#2 ∧
    (block 0#2 true 0#32 (rx 0x80 0x00)).initd = true := by decide

theorem test_wit_DecodeIsOneArithmeticShift :
    (block 1#2 true 0#32 (rx 0x80 0x00)).initd = true ∧ (block 1#2 true 0#32 (rx 0x80 0x00)).inp.xok = true ∧
    variantOf (block 1#2 true 0#32 (rx 0x80 0x00)).res = some .res11 := by decide

theorem test_wit_DecodeReadsTheFirstByteHigh :
    (block 0#2 true 0#32 (rx 0x48 0x00)).initd = true ∧ (block 0#2 true 0#32 (rx 0x48 0x00)).inp.xok = true ∧
    variantOf (block 0#2 true 0#32 (rx 0x48 0x00)).res = some .res9 := by decide

/-- Both supported tags, with the rule's example 0x7F80. -/
theorem test_wit_DecodeNeitherChecksNorClamps :
    ([0#2, 1#2].all fun r => (block r true 0#32 (rx 0x7F 0x80)).initd && (block r true 0#32 (rx 0x7F 0x80)).inp.xok &&
      ((block r true 0#32 (rx 0x7F 0x80)).res == 0#2 || (block r true 0#32 (rx 0x7F 0x80)).res == 1#2)) = true ∧
    (rx 0x7F 0x80).rxb0 = 0x7F#8 ∧ (rx 0x7F 0x80).rxb1 = 0x80#8 := by decide

theorem test_wit_DecodeSignExtendsTheMaskedValue :
    (∀ k, 7 ≤ k → (0x1900#16).getLsbD k = (0x197F#16).getLsbD k) ∧
    (∀ k, 5 ≤ k → (0x1900#16).getLsbD k = (0x191F#16).getLsbD k) := by
  constructor <;> intro k hk <;>
    rcases Nat.lt_or_ge k 16 with h | h
  · interval_cases k <;> rfl
  · rw [BitVec.getLsbD_of_ge _ _ h, BitVec.getLsbD_of_ge _ _ h]
  · interval_cases k <;> rfl
  · rw [BitVec.getLsbD_of_ge _ _ h, BitVec.getLsbD_of_ge _ _ h]

/-- Both variants on both sides of the sign bit (T-D9, T-D10, T-D27, T-D28), and the ends of the decodable range. -/
theorem test_wit_DecodeResultTable :
    ([(0#2, rx 0x7F 0xFF), (0#2, rx 0x80 0x00), (1#2, rx 0x7F 0xFF), (1#2, rx 0x80 0x00)].all
      fun x => (nextOf (exec .decode (block x.1 true 0#32 x.2))).map State.resp = some (some ⟨.ok, none⟩)) = true ∧
    decodable .res9 0xFFFF8000#32 ∧ decodable .res9 0x00007F80#32 ∧ decodable .res11 0x00007FE0#32 := by
  refine ⟨by decide, ?_, ?_, ?_⟩ <;> exact ⟨by decide, by decide, by decide⟩

theorem test_wit_DecodeUnsupportedTagWritesSentinel :
    (block 2#2 true 0#32 (rx 1 2)).initd = true ∧ (rx 1 2).xok = true ∧
    (block 2#2 true 0#32 (rx 1 2)).res = 2#2 ∧ (block 3#2 true 0#32 (rx 1 2)).res = 3#2 := by decide

theorem test_wit_DecodeTransportFailureWritesSentinel :
    (block 3#2 true 0#32 rxFail).initd = true ∧ (block 3#2 true 0#32 rxFail).inp.xok = false := by decide

theorem test_wit_DecodeBeforeInitIsRefused : State.reset.initd = false := by decide

/-- A failed and a successful DECODE. -/
theorem test_wit_SentinelMarksAFailedDecode :
    (nextOf (exec .decode (block 3#2 true 0#32 rxFail))).isSome = true ∧
    (nextOf (exec .decode (block 0#2 true 0#32 (rx 0x19 0x80)))).isSome = true := by decide

/-- A DECODE that succeeds and one that fails, an INIT and an ENCODE, each answering a next state. -/
theorem test_wit_TempHoldsTheLastDecodeResult :
    ([exec .decode (block 0#2 true 0#32 (rx 0x19 0x80)), exec .decode (block 2#2 true 0#32 (rx 0x19 0x80)),
      exec (.init 3#2) State.reset, exec .encode (block 0#2 true 0#32 (tx 0x00007D00))].map
      fun o => (nextOf o).map State.stOut) =
    [some (some 0), some (some 2), some (some 0), some (some 0)] := by decide

/-- Each failure status, at the first value out of range on either side for ENCODE. -/
theorem test_wit_FailureStatusesHaveOneCause :
    ([exec .encode (block 0#2 true 0#32 (tx 0x00007D01)), exec .encode (block 0#2 true 0#32 (tx 0xFFFFC8FF)),
      exec .decode (block 2#2 true 0#32 (rx 0x19 0x80)), exec .decode (block 3#2 true 0#32 (rx 0x19 0x80)),
      exec .decode (block 0#2 true 0#32 rxFail)].map
      fun o => (nextOf o).map State.stOut) =
    [some (some 1), some (some 1), some (some 2), some (some 2), some (some 3)] := by decide

theorem test_wit_RepeatedCommandChangesNothing :
    (nextOf (exec .decode (block 1#2 true 0#32 (rx 0xFF 0xFF)))).isSome = true ∧
    (nextOf (exec .encode (block 1#2 false 0#32 (tx 0xFFFFFF80)))).isSome = true := by decide

theorem test_wit_UnusedPortsAreIgnored :
    samePorts .decode rxFail ⟨0xFF, 7, 1, 2, false⟩ ∧ samePorts .decode (rx 1 2) ⟨0xFF, 7, 1, 2, true⟩ ∧
    samePorts .encode (tx 5) ⟨0xFF, 5, 1, 2, true⟩ ∧ samePorts (.init 0#2) (byte 1) (rx 3 4) := by
  refine ⟨⟨rfl, fun h => nomatch h⟩, ⟨rfl, fun _ => ⟨rfl, rfl⟩⟩, rfl, trivial⟩

theorem test_wit_WrongSupportedTagGoesUnnoticed :
    (rx 0x48 0x20).xok = true ∧ (rx 0x48 0x20).rxb0 = 0x48#8 ∧ (rx 0x48 0x20).rxb1 = 0x20#8 ∧ (rx 0x48 0x00).rxb1 = 0x00#8 ∧
    (block 0#2 true 0#32 (rx 0x48 0x20)).initd = true := by decide

/-- Both bounds of the valid range, and the values just outside (T-E5 to T-E8). -/
theorem test_wit_EncodeAcceptsExactlyTheValidRange :
    -14080 = (tx 0xFFFFC900).din.toInt ∧ (tx 0x00007D00).din.toInt = 32000 ∧ (tx 0xFFFFC8FF).din.toInt = -14081 ∧
    (tx 0x00007D01).din.toInt = 32001 := by decide

theorem test_wit_EncodeAnswersTruncatedDegreeAndHalfFlag :
    -14080 ≤ (block 0#2 false 0#32 (tx 0xFFFFC900)).inp.din.toInt ∧
    (block 0#2 false 0#32 (tx 0xFFFFC900)).inp.din.toInt ≤ 32000 := by decide

/-- Both variants, with the law's three cases: a negative fraction of at least 0.5 (T-E11), a negative one below 0.5 (T-E15), and a
non-negative value (T-E19). -/
theorem test_wit_DecodeOfEncodedThreshold :
    (nextOf (exec .encode (block 0#2 true 0#32 (tx 0xFFFFF580)))).map State.txOut = some (some (0xF6, 0x80)) ∧
    (nextOf (exec .encode (block 1#2 true 0#32 (tx 0xFFFFF5C0)))).map State.txOut = some (some (0xF6, 0x00)) ∧
    (tx 0xFFFFF580).din.toInt < 0 ∧ (tx 0xFFFFF580).din.toInt.natAbs % 256 = 128 ∧
    (tx 0xFFFFF5C0).din.toInt < 0 ∧ (tx 0xFFFFF5C0).din.toInt.natAbs % 256 = 64 ∧
    (nextOf (exec .encode (block 1#2 true 0#32 (tx 0x00007CFF)))).map State.txOut = some (some (0x7C, 0x80)) ∧
    (block 0#2 true 0#32 (tx 0xFFFFF580)).initd = true ∧ variantOf 0#2 = some .res9 ∧ variantOf 1#2 = some .res11 := by decide

/-- The law's three cases at their edges: T-E21, T-E15's fraction 0.25 and T-E13's fraction 0.5. -/
theorem test_wit_EncodedRegisterValueLaw :
    (nextOf (exec .encode (block 0#2 true 0#32 (tx 0x00000000)))).map State.txOut = some (some (0x00, 0x00)) ∧
    (nextOf (exec .encode (block 1#2 true 0#32 (tx 0xFFFFF5C0)))).map State.txOut = some (some (0xF6, 0x00)) ∧
    (nextOf (exec .encode (block 1#2 true 0#32 (tx 0xFFFFFF80)))).map State.txOut = some (some (0x00, 0x80)) ∧
    (tx 0xFFFFF5C0).din.toInt.natAbs % 256 = 64 ∧ (tx 0xFFFFFF80).din.toInt.natAbs % 256 = 128 := by decide

theorem test_wit_EncodeDependsOnDinAlone :
    State.reset.inp.din = (block 2#2 true 9#32 (tx 0#32)).inp.din := by decide

/-- One presented command for each clause of the order of checks, at the bounds of ENCODE's range. -/
theorem test_wit_OutcomeDecidedInOrder :
    ([(State.reset, byte 0x04), (block 1#2 true 0#32 (byte 0), byte 0x01), (State.reset, byte 0x01),
      (State.reset, rx 1 2), (block 3#2 true 0#32 (byte 0), rxFail), (block 2#2 true 0#32 (byte 0), rx 1 2),
      (block 1#2 true 0#32 (byte 0), rx 1 2), (State.reset, tx 0x00007D01), (State.reset, tx 0xFFFFC8FF),
      (State.reset, tx 0x00007D00), (State.reset, tx 0xFFFFC900)].map
      fun x => ((nextOf (step (presenting x.1 x.2))).map State.stOut, (seen (step (presenting x.1 x.2))).2)) =
    [(none, some .reservedCommand), (none, some .alreadyInitialised), (some (some 0), none),
      (none, some .notInitialised), (some (some 3), none), (some (some 2), none), (some (some 0), none),
      (some (some 1), none), (some (some 1), none), (some (some 0), none), (some (some 0), none)] := by decide

theorem test_wit_ReservedBytesAreRefused :
    (0x00#8).extractLsb' 0 3 = 0#3 ∧ 4 ≤ ((0x04#8).extractLsb' 0 3).toNat ∧ (0x21#8).extractLsb' 5 3 ≠ 0#3 ∧
    (0x0A#8).extractLsb' 3 2 ≠ 0#2 ∧ (0x0A#8).extractLsb' 0 3 = 2#3 ∧ (0x0B#8).extractLsb' 0 3 = 3#3 := by decide

/-- A breach of each kind, the first one at the head of its script and the others behind an item that runs. -/
theorem test_wit_BreachedScriptIsRefusedAtItsFirstBreach :
    firstBreach State.reset.initd (assemble (byte 0) [.decode 0x19 0x00]) = some (0, .notInitialised) ∧
    firstBreach State.reset.initd (assemble (byte 0) [.init 0#2, .decode 0xF6 0x80, .init 1#2]) =
      some (2, .alreadyInitialised) ∧
    firstBreach State.reset.initd [⟨.wait, true⟩, ⟨.command (byte 0xFF), false⟩] = some (1, .reservedCommand) ∧
    firstBreach State.reset.initd [⟨.command (tx 0), false⟩, ⟨.commandEarly (tx 0), false⟩] = some (1, .concurrentCommand) ∧
    admitted State.reset.initd (assemble (byte 0) [.decode 0x19 0x00]) = false := by decide

/-- One refusal of each reason, each from a state of its own. -/
theorem test_wit_RefusalReasonsAreExactlyFour :
    [step { State.reset with inbox := [⟨.commandEarly (tx 0), false⟩] }, step (presenting State.reset (byte 0xFF)),
      step (presenting State.reset (rx 1 2)), step (presenting (block 0#2 true 0#32 (byte 0)) (byte 0x01))].map seen =
    [(none, some .concurrentCommand), (none, some .reservedCommand), (none, some .notInitialised),
      (none, some .alreadyInitialised)] := by decide

theorem test_wit_TempOReadSeesTheValueBefore :
    (nextOf (step { State.reset with inbox := [⟨.command (tx 0), true⟩] })).isSome = true := by decide

/-- Before INIT, after INIT, and a refused run. -/
theorem test_wit_TagBeforeInitIsUnobservable :
    State.reset.initd = false ∧ (nextOf (run 1 (presenting State.reset (tx 0)))).map State.initd = some false ∧
    (nextOf (run 1 (presenting State.reset (byte 0x11)))).map State.initd = some true ∧
    seen (present (run 1 (presenting State.reset (rx 1 2)))) = (none, some .notInitialised) := by decide

/-- Program P1 is admitted, P5 is not. -/
theorem test_wit_ScriptCompletesExactlyWhenAdmitted :
    admitted false (assemble (byte 0) [.init 1#2, .decode 0x48 0x00, .decode 0xE6 0xE0]) = true ∧
    admitted false (assemble (byte 0) [.decode 0x19 0x00]) = false := by decide

theorem test_wit_OpcodeTableRowsSelectSixBytes :
    (⟨"INIT", 0x01, 0xE7⟩ : OpcodeRow) ∈ opcodeTable ∧ (⟨"INIT", 0x01, 0xE7⟩ : OpcodeRow).selects 0x19 = true := by decide

theorem test_wit_CommandByteRoundTrip : (Instr.init 3#2).wellFormed = true ∧ Instr.decode.wellFormed = true := by decide

/-- The ends of a Celsius word's range. -/
theorem test_wit_CelsiusWordHoldsItsRangeExactly :
    (-2 ^ 31 : Int) ≤ -2147483648 ∧ (2147483647 : Int) ≤ 2 ^ 31 - 1 := by decide

end Sys2Proof.Tests
end

section
/-! SUPPORT. Celsius words and their values (spec/00_scope.md R11): every multiple of 1/256 °C is an integer count of units, and
`cw` and `cwVal` are inverse to each other on the counts that fit in 32 bits. -/

namespace Sys2Proof.Machine

/-- On a multiple of 1/256 °C the floor in `cw` has nothing to round. -/
@[simp] theorem cw_units (n : Int) : cw ((n : Rat) / 256) = BitVec.ofInt 32 n := by
  have hcount : (n : Rat) / 256 * 256 = n := div_mul_cancel₀ _ (by norm_num)
  rw [cw, hcount, Rat.floor_intCast]

/-- A count of units that a 32-bit two's complement word can hold is read back unchanged. -/
theorem cwVal_ofInt {n : Int} (hlo : -2 ^ 31 ≤ n) (hhi : n ≤ 2 ^ 31 - 1) :
    cwVal (BitVec.ofInt 32 n) = (n : Rat) / 256 := by
  have hfits : (BitVec.ofInt 32 n).toInt = n :=
    BitVec.toInt_ofInt_eq_self (by decide) hlo (Int.lt_of_le_sub_one hhi)
  rw [cwVal, hfits]

@[simp] theorem cw_cwVal (W : Celsius) : cw (cwVal W) = W := by
  rw [cwVal, cw_units, BitVec.ofInt_toInt]

/-- R11's example: -1000 °C is -256000 units. -/
theorem cw_neg_thousand : cw (-1000) = 0xFFFC1800#32 := by
  have hunits : (-1000 : Rat) = ((-256000 : Int) : Rat) / 256 := by norm_num
  rw [hunits, cw_units]
  rfl

/-- Settles O45: `cw` reads off the count of 1/256 °C units, and a 32-bit word holds each count of its range. -/
theorem celsiusWordHoldsItsRangeExactly : Obligations.CelsiusWordHoldsItsRangeExactly :=
  ⟨fun n hlo hhi => ⟨cw_units n, (congrArg cwVal (cw_units n)).trans (cwVal_ofInt hlo hhi)⟩,
    fun W => ⟨rfl, cw_cwVal W⟩,
    cw_neg_thousand⟩

end Sys2Proof.Machine
end

section
/-! SUPPORT. The configuration of the block (spec/10_state.md R22, R23): what an instruction, a step and a run do to the pair of `RES`
and `INITD`. -/

namespace Sys2Proof.Machine

/-- INIT on a block that is not initialised completes, in this state (R133). -/
theorem exec_init_of_uninitialised (tag : Tag) {s : State} (hs : s.initd = false) :
    exec (.init tag) s = .next (((s.setRes tag).setInitd true).respond .ok none) :=
  execInit_next.2 ⟨hs, rfl⟩

/-- An instruction that answers either is the INIT of an uninitialised block or keeps the configuration. -/
theorem exec_configuration {i : Instr} {s t : State} (h : exec i s = .next t) :
    (∃ tag, i = .init tag ∧ s.initd = false ∧ t.initd = true ∧ t.res = tag) ∨ (t.initd = s.initd ∧ t.res = s.res) := by
  rcases exec_cases h with ⟨tag, rfl, hs, rfl⟩ | ⟨-, -, -, rfl⟩ | ⟨-, -, -, -, rfl⟩ | ⟨_, -, -, -, -, rfl⟩ |
    ⟨-, -, rfl⟩ | ⟨-, -, rfl⟩
  · exact .inl ⟨tag, rfl, hs, rfl, rfl⟩
  all_goals exact .inr ⟨rfl, rfl⟩

/-- A step either runs the presented INIT on an uninitialised block or keeps the configuration. -/
theorem step_configuration {s t : State} (h : step s = .next t) :
    (s.initd = false ∧ t.initd = true ∧ ∃ p rd rest tag, s.inbox = ⟨.command p, rd⟩ :: rest ∧
      decodeCommand p.cmd = .ok (.init tag) ∧ t.res = tag) ∨ (t.initd = s.initd ∧ t.res = s.res) := by
  rcases step_cases h with ⟨rd, rfl, -⟩ | ⟨p, rd, rest, i, hinbox, hdecode, hexec⟩
  · exact .inr ⟨rfl, rfl⟩
  · rcases exec_configuration hexec with ⟨tag, rfl, hs, htinitd, htres⟩ | hkept
    · exact .inl ⟨hs, htinitd, p, rd, rest, tag, hinbox, hdecode, htres⟩
    · exact .inr hkept

/-- Once the block is initialised, its configuration is fixed for the rest of the run. -/
theorem run_configuration_of_initialised :
    ∀ k s t, run k s = .next t → s.initd = true → t.initd = true ∧ t.res = s.res := by
  refine run_rel (fun s hs => ⟨hs, rfl⟩) fun s t u hstep ih hs => ?_
  rcases step_configuration hstep with ⟨hunset, -⟩ | ⟨hinitd, hres⟩
  · exact absurd hs (by simp [hunset])
  · rw [← hres]
    exact ih (hinitd.trans hs)

/-- Settles O10: a step that changes `RES` cannot be one that keeps the configuration. -/
theorem resWrittenOnceByInit : Obligations.ResWrittenOnceByInit := by
  refine ⟨fun s t hstep hne => ?_, fun k s t hs hrun => (run_configuration_of_initialised k s t hrun hs).2,
    fun tag s hs => ⟨_, exec_init_of_uninitialised tag hs, rfl⟩⟩
  rcases step_configuration hstep with ⟨hs, -, hinit⟩ | ⟨-, hres⟩
  · exact ⟨hs, hinit⟩
  · exact absurd hres hne

/-- Settles O11: a step that changes `INITD` cannot be one that keeps the configuration, and a DECODE checks it first. -/
theorem initdSetByInitAndNeverCleared : Obligations.InitdSetByInitAndNeverCleared := by
  refine ⟨rfl, fun tag s hs => ⟨_, exec_init_of_uninitialised tag hs, rfl⟩, fun s t hstep hne => ?_,
    fun k s t hs hrun => (run_configuration_of_initialised k s t hrun hs).1, fun s t h => (execDecode_next.1 h).1⟩
  rcases step_configuration hstep with ⟨-, ht, p, rd, rest, tag, hinbox, hdecode, -⟩ | ⟨hinitd, -⟩
  · exact ⟨ht, p, rd, rest, tag, hinbox, hdecode⟩
  · exact absurd hinitd hne

end Sys2Proof.Machine
end

section
/-! SUPPORT. The register `TEMP` (spec/10_state.md R24): which instructions write it, and what a DECODE leaves in it. -/

namespace Sys2Proof.Machine

@[simp] theorem Status.code_eq_zero_iff (st : Status) : st.code = 0#2 ↔ st = .ok := by
  cases st <;> decide

/-- The sentinel is -256000 units of 1/256 °C. -/
theorem cwVal_sentinel : cwVal Config.sentinel = -1000 := by
  have hunits : Config.sentinel = BitVec.ofInt 32 (-256000) := rfl
  rw [hunits, cwVal_ofInt (by decide) (by decide)]
  norm_num

/-- No instruction but DECODE writes `TEMP`. -/
theorem exec_temp_of_ne_decode {i : Instr} {s t : State} (h : exec i s = .next t) (hi : i ≠ .decode) :
    t.temp = s.temp := by
  rcases exec_cases h with ⟨_, -, -, rfl⟩ | ⟨hd, -⟩ | ⟨hd, -⟩ | ⟨_, hd, -⟩ | ⟨-, -, rfl⟩ | ⟨-, -, rfl⟩
  · rfl
  · exact absurd hd hi
  · exact absurd hd hi
  · exact absurd hd hi
  · rfl
  · rfl

/-- A DECODE on an initialised block completes: with the decoded word and OK, or with the sentinel and a failure status. -/
theorem exec_decode_of_initialised {s : State} (hs : s.initd = true) :
    (∃ v, variantOf s.res = some v ∧
      exec .decode s = .next ((s.setTemp (decodeTemp v (rawOf s.inp))).respond .ok none)) ∨
    (∃ st, st ≠ .ok ∧ exec .decode s = .next ((s.setTemp Config.sentinel).respond st none)) := by
  cases hx : s.inp.xok with
  | false => exact .inr ⟨.transportError, by decide, execDecode_next.2 ⟨hs, .inl ⟨hx, rfl⟩⟩⟩
  | true =>
    cases hv : variantOf s.res with
    | none => exact .inr ⟨.unsupportedVariant, by decide, execDecode_next.2 ⟨hs, .inr (.inl ⟨hx, hv, rfl⟩)⟩⟩
    | some v => exact .inl ⟨v, rfl, execDecode_next.2 ⟨hs, .inr (.inr ⟨v, hx, hv, rfl⟩)⟩⟩

/-- Settles O23: the status tells which of its two words a DECODE wrote, and the other instructions write none. -/
theorem tempHoldsTheLastDecodeResult : Obligations.TempHoldsTheLastDecodeResult := by
  refine ⟨fun s hs => ?_, fun tag s t h => exec_temp_of_ne_decode h (by simp),
    fun s t h => exec_temp_of_ne_decode h (by simp), rfl, State.tempO_eq_temp, cwVal_sentinel⟩
  rcases exec_decode_of_initialised hs with ⟨v, hv, h⟩ | ⟨st, hst, h⟩
  · exact ⟨_, h, fun _ => ⟨v, hv, rfl⟩, fun hfail => absurd rfl hfail⟩
  · exact ⟨_, h, fun hok => absurd hok (by simp [hst]), fun _ => rfl⟩

end Sys2Proof.Machine
end

section
/-! SUPPORT. The ports (spec/10_state.md R30): the ends of a command commute with replacing the input ports, and so does each meaning
when the ports it uses are kept; the bytes come from ENCODE alone. -/

namespace Sys2Proof.Machine

@[simp] theorem withInp_present_refuse (p : InPorts) (q : RefusalReason) :
    withInp p (present (refuse q)) = present (refuse q) := rfl

@[simp] theorem withInp_present_finish (p : InPorts) (s : State) (tx : Option (Byte × Byte)) :
    withInp p (present (finish s tx)) = present (finish (s.setInp p) tx) := rfl

@[simp] theorem withInp_present_failDecode (p : InPorts) (s : State) (st : Status) :
    withInp p (present (failDecode s st)) = present (failDecode (s.setInp p) st) := rfl

@[simp] theorem State.setRes_setInp (s : State) (v : Tag) (p : InPorts) :
    (s.setRes v).setInp p = (s.setInp p).setRes v := rfl
@[simp] theorem State.setInitd_setInp (s : State) (v : Bool) (p : InPorts) :
    (s.setInitd v).setInp p = (s.setInp p).setInitd v := rfl
@[simp] theorem State.setTemp_setInp (s : State) (v : Celsius) (p : InPorts) :
    (s.setTemp v).setInp p = (s.setInp p).setTemp v := rfl

/-- INIT uses no operand port. -/
theorem execInit_setInp (tag : Tag) (s : State) (p : InPorts) :
    execInit tag (s.setInp p) = withInp p (execInit tag s) := by
  unfold execInit blockInit
  cases hs : s.initd <;> simp [hs]

/-- DECODE uses the success flag, and the two bytes only when it is set. -/
theorem execDecode_setInp {s : State} {p : InPorts} (hxok : s.inp.xok = p.xok)
    (hbytes : s.inp.xok = true → rawOf s.inp = rawOf p) :
    execDecode (s.setInp p) = withInp p (execDecode s) := by
  unfold execDecode blockDecode
  cases hs : s.initd with
  | false => simp [hs]
  | true =>
    cases hx : s.inp.xok with
    | false => simp [hs, hx, ← hxok]
    | true => cases hv : variantOf s.res <;> simp [hs, hx, hv, ← hxok, ← hbytes hx]

/-- ENCODE uses `DIN` alone. -/
theorem execEncode_setInp {s : State} {p : InPorts} (hdin : s.inp.din = p.din) :
    execEncode (s.setInp p) = withInp p (execEncode s) := by
  have hunits : dinUnits p = dinUnits s.inp := congrArg BitVec.toInt hdin.symm
  rw [execEncode_eq, execEncode_eq, State.setInp_inp, hunits]
  cases inRange (dinUnits s.inp) <;> rfl

/-- Only ENCODE answers bytes. -/
theorem exec_txOut_of_ne_encode {i : Instr} {s t : State} (h : exec i s = .next t) (hi : i ≠ .encode) :
    t.txOut = none := by
  rcases exec_cases h with ⟨_, -, -, rfl⟩ | ⟨-, -, -, rfl⟩ | ⟨-, -, -, -, rfl⟩ | ⟨_, -, -, -, -, rfl⟩ | ⟨he, -⟩ | ⟨he, -⟩
  · rfl
  · rfl
  · rfl
  · rfl
  · exact absurd he hi
  · exact absurd he hi

/-- Settles O31: each meaning commutes with a change of the ports it does not use, and only ENCODE answers bytes. -/
theorem unusedPortsAreIgnored : Obligations.UnusedPortsAreIgnored := by
  refine ⟨fun i s p hsame => ?_, fun i s t h htxv => ?_,
    fun _ _ _ _ htxv => ⟨State.txvOut_false_txb0Out htxv, State.txvOut_false_txb1Out htxv⟩⟩
  · cases i with
    | init tag => exact execInit_setInp tag s p
    | decode =>
      obtain ⟨hxok, hbytes⟩ := hsame
      refine execDecode_setInp hxok fun hx => ?_
      obtain ⟨h0, h1⟩ := hbytes hx
      rw [rawOf, rawOf, h0, h1]
    | encode => exact execEncode_setInp hsame
  · by_contra hi
    simp [State.txvOut, exec_txOut_of_ne_encode h hi] at htxv

end Sys2Proof.Machine
end

section
/-! SUPPORT. The byte order of the transfers (spec/20_memory.md R44, R45): the word a DECODE assembles from its two bytes, and the two
bytes an ENCODE answers. -/

namespace Sys2Proof.Machine

/-- A DECODE that meets none of its failures writes the decoded word and answers OK (R100). -/
theorem exec_decode_of_supported {s : State} {v : Variant} (hs : s.initd = true) (hx : s.inp.xok = true)
    (hv : variantOf s.res = some v) :
    exec .decode s = .next ((s.setTemp (decodeTemp v (rawOf s.inp))).respond .ok none) :=
  execDecode_next.2 ⟨hs, .inr (.inr ⟨v, hx, hv, rfl⟩)⟩

/-- The first byte received is the high byte of the word. -/
@[simp] theorem rawOf_high (p : InPorts) : (rawOf p).extractLsb' 8 8 = p.rxb0 :=
  BitVec.extractLsb'_append_eq_left

/-- The second byte received is the low byte of the word. -/
@[simp] theorem rawOf_low (p : InPorts) : (rawOf p).extractLsb' 0 8 = p.rxb1 :=
  BitVec.extractLsb'_append_eq_right

/-- Settles O24: both bytes are read back from the assembled word, and that word is what a DECODE decodes. -/
theorem decodeReadsTheFirstByteHigh : Obligations.DecodeReadsTheFirstByteHigh :=
  ⟨fun p => ⟨rawOf_high p, rawOf_low p⟩, fun _ _ hs hx hv => ⟨_, exec_decode_of_supported hs hx hv, rfl⟩⟩

/-- An ENCODE in the valid range answers OK with its two bytes (R80, R81). -/
theorem exec_encode_of_inRange {s : State} (hlo : -14080 ≤ dinUnits s.inp) (hhi : dinUnits s.inp ≤ 32000) :
    exec .encode s = .next (s.respond .ok (some (encodeBytes (dinUnits s.inp)))) :=
  (execEncode_eq s).trans (by rw [if_pos ((inRange_iff _).2 ⟨hlo, hhi⟩)])

/-- In the valid range the truncated degrees lie between `T_MIN` and `T_MAX`. -/
theorem tdiv_256_bounds {X : Int} (hlo : -14080 ≤ X) (hhi : X ≤ 32000) : -55 ≤ X.tdiv 256 ∧ X.tdiv 256 ≤ 125 := by
  rw [tdiv_256]
  split <;> omega

theorem highByte_eq (X : Int) : highByte X = BitVec.ofInt 8 (X.tdiv 256) := by
  rw [highByte, truncDegrees_eq_tdiv]

/-- In the valid range the high byte, as a signed byte, is the truncated degrees (R82: the byte does not wrap). -/
theorem highByte_toInt {X : Int} (hlo : -14080 ≤ X) (hhi : X ≤ 32000) : (highByte X).toInt = X.tdiv 256 := by
  obtain ⟨hmin, hmax⟩ := tdiv_256_bounds hlo hhi
  rw [highByte_eq]
  exact BitVec.toInt_ofInt_eq_self (by decide) (by omega) (by omega)

/-- Settles O26: in the valid range ENCODE answers its two bytes, and the high one holds the truncated degrees without a wrap. -/
theorem encodeAnswersTruncatedDegreeAndHalfFlag : Obligations.EncodeAnswersTruncatedDegreeAndHalfFlag := by
  intro s hlo hhi
  have hsigned : (highByte s.inp.din.toInt).toInt = s.inp.din.toInt.tdiv 256 := highByte_toInt hlo hhi
  obtain ⟨hmin, hmax⟩ := tdiv_256_bounds hlo hhi
  exact ⟨highByte s.inp.din.toInt, lowByte s.inp.din.toInt, _, exec_encode_of_inRange hlo hhi, rfl, rfl, rfl, rfl, rfl,
    highByte_eq _, hsigned, hsigned ▸ hmin, hsigned ▸ hmax, rfl⟩

end Sys2Proof.Machine
end

section
/-! SUPPORT. The command byte (spec/30_encoding.md R61, R63, R66): its fields and the byte determine each other, and the decoder
answers an instruction exactly on that instruction's fields. -/

namespace Sys2Proof.Machine

/-- A byte is its three fields put together again (R61). -/
@[simp] theorem packFields_fieldsOf (b : Byte) : packFields (fieldsOf b) = b := by
  have hhigh : b.extractLsb' 5 3 ++ b.extractLsb' 3 2 = b.extractLsb' 3 5 :=
    BitVec.extractLsb'_append_extractLsb'_eq_extractLsb' rfl
  have hwhole : b.extractLsb' 3 5 ++ b.extractLsb' 0 3 = b.extractLsb' 0 8 :=
    BitVec.extractLsb'_append_extractLsb'_eq_extractLsb' rfl
  rw [packFields, fieldsOf, hhigh, hwhole, BitVec.extractLsb'_eq_self]

/-- The decoder of the fields answers an instruction only on that instruction's fields. -/
theorem fields_of_decodeFields_ok {f : CommandFields} {i : Instr} (h : decodeFields f = .ok i) : f = i.fields := by
  obtain ⟨z, r, op⟩ := f
  simp only [decodeFields] at h
  split_ifs at h with hz hinit hdecode hr hencode hr <;> cases h
  · rw [not_not.1 hz, hinit]; rfl
  · rw [not_not.1 hz, hdecode, hr]; rfl
  · rw [not_not.1 hz, hencode, hr]; rfl

@[simp] theorem decodeFields_fields (i : Instr) : decodeFields i.fields = .ok i := by
  cases i <;> rfl

@[simp] theorem fieldsOf_encode (i : Instr) : fieldsOf (encode i) = i.fields := by
  cases i with
  | init tag => revert tag; decide
  | decode => rfl
  | encode => rfl

theorem fieldsOf_of_decodeCommand_ok {b : Byte} {i : Instr} (h : decodeCommand b = .ok i) : fieldsOf b = i.fields :=
  fields_of_decodeFields_ok h

/-- A byte decodes to an instruction exactly when it is the instruction's command byte. -/
theorem decodeCommand_ok_iff {b : Byte} {i : Instr} : decodeCommand b = .ok i ↔ b = encode i := by
  constructor
  · intro h
    rw [encode, ← fieldsOf_of_decodeCommand_ok h, packFields_fieldsOf]
  · rintro rfl
    rw [decodeCommand, fieldsOf_encode, decodeFields_fields]

/-! ### The rows of the opcode table -/

/-- INIT's mask tests `Z` and `OP` and leaves `R` out: a byte that it matches is an INIT with the byte's own `R` as the tag. -/
theorem eq_encode_init_of_masked {b : Byte} (h : b &&& 0xE7#8 = 0x01#8) : b = encode (.init (fieldsOf b).r) := by
  have hz : (fieldsOf b).z = 0#3 := by
    have hbits := congrArg (BitVec.extractLsb' 5 3) h
    rw [BitVec.extractLsb'_and] at hbits
    exact BitVec.and_allOnes.symm.trans hbits
  have hop : (fieldsOf b).op = 1#3 := by
    have hbits := congrArg (BitVec.extractLsb' 0 3) h
    rw [BitVec.extractLsb'_and] at hbits
    exact BitVec.and_allOnes.symm.trans hbits
  calc b = packFields (fieldsOf b) := (packFields_fieldsOf b).symm
    _ = encode (.init (fieldsOf b).r) := by rw [packFields, hz, hop]; rfl

/-- A byte that selects a row is the command byte of some instruction. -/
theorem exists_encode_of_selects {row : OpcodeRow} (hrow : row ∈ opcodeTable) {b : Byte} (h : row.selects b = true) :
    ∃ i, b = encode i := by
  have hbits : b &&& row.mask = row.matchBits := beq_iff_eq.1 h
  simp only [opcodeTable, List.mem_cons, List.not_mem_nil, or_false] at hrow
  rcases hrow with rfl | rfl | rfl
  · exact ⟨_, eq_encode_init_of_masked hbits⟩
  · exact ⟨.decode, BitVec.and_allOnes.symm.trans hbits⟩
  · exact ⟨.encode, BitVec.and_allOnes.symm.trans hbits⟩

/-- The family made per instruction, for every instruction. -/
theorem encodesInItsRow (i : Instr) : Laws.EncodesInItsRow.Statement i := by
  cases i with
  | init tag => exact Laws.EncodesInItsRow.init tag
  | decode => exact Laws.EncodesInItsRow.decode
  | encode => exact Laws.EncodesInItsRow.encode

/-- Of the table's rows, a command byte selects its instruction's alone. -/
theorem selects_encode_iff (i : Instr) {row : OpcodeRow} (hrow : row ∈ opcodeTable) :
    row.selects (encode i) = true ↔ row = i.row := by
  obtain ⟨-, -, hselects⟩ := encodesInItsRow i
  exact hselects row hrow

/-- A byte selects a row exactly when it decodes to an instruction of that row. -/
theorem selects_iff_decodeCommand {row : OpcodeRow} (hrow : row ∈ opcodeTable) (b : Byte) :
    row.selects b = true ↔ ∃ i, decodeCommand b = .ok i ∧ i.row = row := by
  constructor
  · intro h
    obtain ⟨i, rfl⟩ := exists_encode_of_selects hrow h
    exact ⟨i, decodeCommand_ok_iff.2 rfl, ((selects_encode_iff i hrow).1 h).symm⟩
  · rintro ⟨i, hdecode, rfl⟩
    rw [decodeCommand_ok_iff.1 hdecode]
    exact (selects_encode_iff i hrow).2 rfl

/-- No byte selects two rows: the instruction it encodes has one. -/
theorem row_unique_of_selects {row row' : OpcodeRow} (hrow : row ∈ opcodeTable) (hrow' : row' ∈ opcodeTable) {b : Byte}
    (h : row.selects b = true) (h' : row'.selects b = true) : row = row' := by
  obtain ⟨i, rfl⟩ := exists_encode_of_selects hrow h
  exact ((selects_encode_iff i hrow).1 h).trans ((selects_encode_iff i hrow').1 h').symm

/-- Settles O42: a selecting byte is some instruction's command byte, which selects that instruction's row alone; the 256 byte values
are a finite count. -/
theorem opcodeTableRowsSelectSixBytes : Obligations.OpcodeTableRowsSelectSixBytes :=
  ⟨fun b _ hrow => selects_iff_decodeCommand hrow b,
    fun _ _ hrow _ hrow' h h' => row_unique_of_selects hrow hrow' h h',
    by decide⟩

/-! ### The reserved bytes -/

/-- The three cases of R66 are the ways to fail the checks on the fields. -/
theorem wellFormed_eq_false_of_reserved {f : CommandFields}
    (h : f.op = 0#3 ∨ 4 ≤ f.op.toNat ∨ f.z ≠ 0#3 ∨ (f.r ≠ 0#2 ∧ (f.op = 2#3 ∨ f.op = 3#3))) :
    f.wellFormed = false := by
  rw [CommandFields.wellFormed]
  rcases h with hop | hop | hz | ⟨hr, hop⟩
  · simp [CommandFields.opOk, hop]
  · have hopOk : f.opOk = false := by
      have hne : f.op ≠ 1#3 ∧ f.op ≠ 2#3 ∧ f.op ≠ 3#3 := by bv_omega
      simp [CommandFields.opOk, hne]
    simp [hopOk]
  · simp [CommandFields.zOk, hz]
  · rcases hop with hop | hop <;> simp [CommandFields.rOk, hr, hop]

/-- A byte that decodes to an instruction passes the checks on the fields. -/
theorem wellFormed_of_decodeCommand_ok {b : Byte} {i : Instr} (h : decodeCommand b = .ok i) :
    (fieldsOf b).wellFormed = true := by
  obtain ⟨hwellFormed, -, -⟩ := encodesInItsRow i
  rw [fieldsOf_of_decodeCommand_ok h]
  exact hwellFormed

/-- A presented byte that the decoder rejects is refused, before anything in the state is looked at (R145). -/
theorem step_of_decodeCommand_error {s : State} {p : InPorts} {rd : Bool} {rest : List HostStep} {e : Reserved}
    (hinbox : s.inbox = ⟨.command p, rd⟩ :: rest) (he : decodeCommand p.cmd = .error e) :
    step s = .refused (.reason .reservedCommand) := by
  have hfetch : fetch s = .refuse .reservedCommand := by simp [fetch, hinbox, decodePresented, he]
  rw [step, hfetch]
  exact present_refuse _

/-- Settles O43: a byte that the decoder accepts passes the checks on the fields, and a byte of R66's cases does not. -/
theorem reservedBytesAreRefused : Obligations.ReservedBytesAreRefused := by
  intro s p rd rest hinbox hreserved
  have hill : (fieldsOf p.cmd).wellFormed = false := wellFormed_eq_false_of_reserved hreserved
  cases hdecode : decodeCommand p.cmd with
  | error e => exact step_of_decodeCommand_error hinbox hdecode
  | ok i => exact absurd (wellFormed_of_decodeCommand_ok hdecode) (Bool.eq_false_iff.1 hill)

end Sys2Proof.Machine
end

section
/-! SUPPORT. The pseudo-instruction `DECODE.FAIL` (spec/30_encoding.md R69). -/

namespace Sys2Proof.Machine

@[simp] theorem drivePorts_decodeFail_cmd (base : InPorts) : (drivePorts base .decodeFail).cmd = 0x02#8 := rfl
@[simp] theorem drivePorts_decodeFail_xok (base : InPorts) : (drivePorts base .decodeFail).xok = false := rfl

/-- Settles O46: the line clears `XOK`, and a DECODE without it does not use the bytes. -/
theorem decodeFailIsADecodeWithoutBytes : Obligations.DecodeFailIsADecodeWithoutBytes := by
  refine ⟨fun base => ⟨drivePorts_decodeFail_cmd base, drivePorts_decodeFail_xok base⟩, fun s base base' => ?_⟩
  have hunset : (s.setInp (drivePorts base .decodeFail)).inp.xok = false := drivePorts_decodeFail_xok base
  exact execDecode_setInp (p := drivePorts base' .decodeFail) hunset fun hset => absurd hset (Bool.eq_false_iff.1 hunset)

end Sys2Proof.Machine
end

section
/-! SUPPORT. ENCODE's response (spec/40_encode.md R80, R81, R84): a function of the operand alone, decided by the range check. -/

namespace Sys2Proof.Machine

/-- What ENCODE answers for the operand `X`, in units of 1/256 °C (R80). -/
def encodeResponse (X : Int) : Response :=
  if inRange X = true then ⟨.ok, some (encodeBytes X)⟩ else ⟨.invalidRange, none⟩

/-- ENCODE completes in every state, gives its operand's response and changes nothing else (R86). -/
theorem exec_encode_eq (s : State) :
    exec .encode s = .next { s with resp := some (encodeResponse (dinUnits s.inp)) } := by
  refine (execEncode_eq s).trans ?_
  rw [encodeResponse]
  split <;> rfl

theorem encodeResponse_of_not_inRange {X : Int} (h : ¬(-14080 ≤ X ∧ X ≤ 32000)) :
    encodeResponse X = ⟨.invalidRange, none⟩ :=
  if_neg fun hin => h ((inRange_iff X).1 hin)

/-- Settles O27: in the range ENCODE answers OK with its two bytes; outside it the response is the rejection. -/
theorem encodeAcceptsExactlyTheValidRange : Obligations.EncodeAcceptsExactlyTheValidRange := by
  refine ⟨fun s ⟨hlo, hhi⟩ => ⟨_, exec_encode_of_inRange hlo hhi, rfl, rfl⟩, fun s hout => ?_⟩
  have hrejected : encodeResponse (dinUnits s.inp) = ⟨.invalidRange, none⟩ := encodeResponse_of_not_inRange hout
  rw [exec_encode_eq, hrejected]

/-- Settles O30: the response is a function of the operand, which is `DIN`'s value. -/
theorem encodeDependsOnDinAlone : Obligations.EncodeDependsOnDinAlone := by
  intro s s' hdin
  have hunits : dinUnits s.inp = dinUnits s'.inp := congrArg BitVec.toInt hdin
  exact ⟨encodeResponse (dinUnits s.inp), exec_encode_eq s, hunits ▸ exec_encode_eq s'⟩

end Sys2Proof.Machine
end

section
/-! SUPPORT. The count and the word of a DECODE (spec/41_decode.md R107, R108, R110): both paths are one floor division of the signed
raw value, and the word is that value less its remainder by `STEP`. -/

namespace Sys2Proof.Machine

/-- A step is the weight of the bit at `SHIFT` (R108). -/
theorem stepUnits_eq_two_pow (v : Variant) : v.stepUnits = 2 ^ v.shift := by
  cases v <;> rfl

theorem stepUnits_bounds (v : Variant) : 0 < v.stepUnits ∧ v.stepUnits ≤ 128 := by
  cases v <;> decide

theorem raw_toInt_of_nonNegative {raw : Raw} (hbit : raw.getLsbD 15 = false) : raw.toInt = (raw.toNat : Int) := by
  rw [raw_bit15, decide_eq_false_iff_not] at hbit
  rw [raw_toInt, if_neg hbit]

/-- The 16-bit inversion of a negative raw value holds `-x - 1`, which is how `Int.negSucc` writes x. -/
theorem raw_toInt_of_negative {raw : Raw} (hbit : raw.getLsbD 15 = true) : raw.toInt = Int.negSucc (~~~raw).toNat := by
  rw [raw_bit15, decide_eq_true_eq] at hbit
  have hlt := raw.isLt
  rw [raw_toInt, if_pos hbit, BitVec.toNat_not, Int.negSucc_eq]
  omega

theorem countNonNegative_eq_ediv (v : Variant) (raw : Raw) :
    countNonNegative v raw = (raw.toNat : Int) / 2 ^ v.shift := by
  rw [countNonNegative, Nat.shiftRight_eq_div_pow]
  push_cast
  rfl

theorem countNegative_eq_ediv (v : Variant) (raw : Raw) :
    countNegative v raw = Int.negSucc (~~~raw).toNat / 2 ^ v.shift := by
  rw [countNegative, Nat.shiftRight_eq_div_pow, Int.negSucc_ediv _ (by positivity)]
  push_cast
  rfl

/-- Both paths count `floor(sint_16(raw) / 2^SHIFT)` steps (R107). -/
theorem decodeCount_eq_ediv (v : Variant) (raw : Raw) : decodeCount v raw = raw.toInt / 2 ^ v.shift := by
  rcases decodeCount_cases v raw with ⟨hbit, hcount⟩ | ⟨hbit, hcount⟩
  · rw [hcount, countNonNegative_eq_ediv, raw_toInt_of_nonNegative hbit]
  · rw [hcount, countNegative_eq_ediv, raw_toInt_of_negative hbit]

/-- The steps counted are the raw value less its remainder by one step. -/
theorem decodeCount_mul_stepUnits (v : Variant) (raw : Raw) :
    decodeCount v raw * v.stepUnits = raw.toInt - raw.toInt % v.stepUnits := by
  rw [decodeCount_eq_ediv, stepUnits_eq_two_pow]
  exact eq_sub_of_add_eq (Int.ediv_mul_add_emod _ _)

/-- The word's value is the raw value less its remainder by one step: a 32-bit word holds each such value, so it does not wrap. -/
theorem decodeTemp_toInt (v : Variant) (raw : Raw) :
    (decodeTemp v raw).toInt = raw.toInt - raw.toInt % v.stepUnits := by
  have hlo := raw.le_toInt
  have hhi := raw.toInt_lt
  obtain ⟨hpos, hmax⟩ := stepUnits_bounds v
  have hnonneg := Int.emod_nonneg raw.toInt hpos.ne'
  have hlt := Int.emod_lt_of_pos raw.toInt hpos
  rw [decodeTemp, decodeCount_mul_stepUnits]
  exact BitVec.toInt_ofInt_eq_self (by decide) (by omega) (by omega)

/-- R110's example: 0x7F80 is a multiple of either step, so both variants decode it to 127.5 °C. -/
theorem decodeTemp_0x7F80 (v : Variant) : decodeTemp v 0x7F80#16 = 0x00007F80#32 := by
  cases v <;> rfl

theorem exists_variantOf_of_supported {tag : Tag} (h : tag = 0#2 ∨ tag = 1#2) : ∃ v, variantOf tag = some v := by
  rcases h with rfl | rfl
  · exact ⟨.res9, rfl⟩
  · exact ⟨.res11, rfl⟩

/-- Settles O21: a DECODE under a supported tag answers OK whatever the raw value, and its word is that value less the remainder. -/
theorem decodeNeitherChecksNorClamps : Obligations.DecodeNeitherChecksNorClamps := by
  refine ⟨fun s hs hx hres => ?_, fun s hs hx hres h0 h1 => ?_⟩
  · obtain ⟨v, hv⟩ := exists_variantOf_of_supported hres
    refine ⟨_, exec_decode_of_supported hs hx hv, rfl, fun hres9 => ?_, fun hres11 => ?_⟩
    · obtain rfl : v = .res9 := Option.some.inj (hv.symm.trans ((variantOf_eq_res9 _).2 hres9))
      exact decodeTemp_toInt .res9 _
    · obtain rfl : v = .res11 := Option.some.inj (hv.symm.trans ((variantOf_eq_res11 _).2 hres11))
      exact decodeTemp_toInt .res11 _
  · obtain ⟨v, hv⟩ := exists_variantOf_of_supported hres
    have hraw : rawOf s.inp = 0x7F80#16 := by rw [rawOf, h0, h1]; rfl
    exact ⟨_, exec_decode_of_supported hs hx hv, rfl, (congrArg (decodeTemp v) hraw).trans (decodeTemp_0x7F80 v)⟩

end Sys2Proof.Machine
end

section
/-! SUPPORT. The outcomes of DECODE (spec/41_decode.md R101 to R106): its two paths, its two failures and its refusal. -/

namespace Sys2Proof.Machine

/-- With bit 15 clear a DECODE takes the non-negative path and writes nothing else than its word and OK (R101). -/
theorem exec_decode_of_nonNegative {s : State} {v : Variant} (hs : s.initd = true) (hx : s.inp.xok = true)
    (hv : variantOf s.res = some v) (hbit : (rawOf s.inp).getLsbD 15 = false) :
    exec .decode s = .next { s with
      temp := BitVec.ofInt 32 (((rawOf s.inp).toNat >>> v.shift : Nat) * v.stepUnits), resp := some ⟨.ok, none⟩ } := by
  rw [exec_decode_of_supported hs hx hv, decodeTemp, decodeCount, if_pos hbit]
  rfl

/-- With bit 15 set a DECODE takes the negative path and writes nothing else than its word and OK (R102). -/
theorem exec_decode_of_negative {s : State} {v : Variant} (hs : s.initd = true) (hx : s.inp.xok = true)
    (hv : variantOf s.res = some v) (hbit : (rawOf s.inp).getLsbD 15 = true) :
    exec .decode s = .next { s with
      temp := BitVec.ofInt 32 (-(((~~~(rawOf s.inp)).toNat >>> v.shift : Nat) + 1) * v.stepUnits),
      resp := some ⟨.ok, none⟩ } := by
  rw [exec_decode_of_supported hs hx hv, decodeTemp, decodeCount, if_neg (by simp [hbit])]
  rfl

/-- Settles O12: each supported tag selects its variant, whose numbers stand in the path's word. -/
theorem decodeNonNegativePath : Obligations.DecodeNonNegativePath := by
  intro s hs hx hbit
  refine ⟨fun hres => ?_, fun hres => ?_⟩
  · exact exec_decode_of_nonNegative hs hx ((variantOf_eq_res9 _).2 hres) hbit
  · exact exec_decode_of_nonNegative hs hx ((variantOf_eq_res11 _).2 hres) hbit

/-- Settles O13: each supported tag selects its variant, whose numbers stand in the path's word. -/
theorem decodeNegativePath : Obligations.DecodeNegativePath := by
  intro s hs hx hbit
  refine ⟨fun hres => ?_, fun hres => ?_⟩
  · simpa only [Variant.shift, Variant.stepUnits] using
      exec_decode_of_negative hs hx ((variantOf_eq_res9 _).2 hres) hbit
  · simpa only [Variant.shift, Variant.stepUnits] using
      exec_decode_of_negative hs hx ((variantOf_eq_res11 _).2 hres) hbit

/-- Settles O18: the two tags are those that select no variant. -/
theorem decodeUnsupportedTagWritesSentinel : Obligations.DecodeUnsupportedTagWritesSentinel :=
  fun _ hs hx hres => execDecode_next.2 ⟨hs, .inr (.inl ⟨hx, (variantOf_eq_none _).2 hres, rfl⟩)⟩

/-- Settles O19: the transport check comes before the tag's. -/
theorem decodeTransportFailureWritesSentinel : Obligations.DecodeTransportFailureWritesSentinel :=
  fun _ hs hx => execDecode_next.2 ⟨hs, .inl ⟨hx, rfl⟩⟩

/-- Settles O20: the check of `INITD` comes first. -/
theorem decodeBeforeInitIsRefused : Obligations.DecodeBeforeInitIsRefused :=
  fun _ hs => execDecode_refused.2 ⟨hs, rfl⟩

end Sys2Proof.Machine
end

section
/-! SUPPORT. Repeating a command (spec/40_encode.md R80, spec/41_decode.md R100): DECODE and ENCODE do not read what they write, so the
state that one of them left gives the same outcome again. -/

namespace Sys2Proof.Machine

/-- DECODE reads neither `TEMP` nor the response, and writes both on every outcome but the refusal. -/
theorem execDecode_setTemp_respond (s : State) (w : Celsius) (st : Status) (tx : Option (Byte × Byte)) :
    execDecode ((s.setTemp w).respond st tx) = execDecode s := rfl

/-- ENCODE does not read the response, and writes it on every outcome. -/
theorem execEncode_respond (s : State) (st : Status) (tx : Option (Byte × Byte)) :
    execEncode (s.respond st tx) = execEncode s := rfl

/-- A DECODE that answers writes `TEMP` and the response alone. -/
theorem exists_setTemp_respond_of_exec_decode {s t : State} (h : exec .decode s = .next t) :
    ∃ w st, t = (s.setTemp w).respond st none := by
  obtain ⟨-, ⟨-, rfl⟩ | ⟨-, -, rfl⟩ | ⟨v, -, -, rfl⟩⟩ := execDecode_next.1 h
  · exact ⟨_, _, rfl⟩
  · exact ⟨_, _, rfl⟩
  · exact ⟨_, _, rfl⟩

/-- An ENCODE writes the response alone. -/
theorem exists_respond_of_exec_encode {s t : State} (h : exec .encode s = .next t) : ∃ st tx, t = s.respond st tx := by
  rw [exec_encode_eq] at h
  cases h
  exact ⟨_, _, rfl⟩

/-- Settles O38: the second command runs as the first did, since what the first wrote is not read. -/
theorem repeatedCommandChangesNothing : Obligations.RepeatedCommandChangesNothing := by
  refine ⟨fun s t h => ?_, fun s t h => ?_⟩
  · obtain ⟨w, st, rfl⟩ := exists_setTemp_respond_of_exec_decode h
    exact (execDecode_setTemp_respond s w st none).trans h
  · obtain ⟨st, tx, rfl⟩ := exists_respond_of_exec_encode h
    exact (execEncode_respond s st tx).trans h

end Sys2Proof.Machine
end

section
/-! SUPPORT. Scripts without a DECODE (spec/42_init.md R132): such a script stays one when its first item is consumed, and each
of its steps keeps `TEMP`. -/

namespace Sys2Proof.Machine

/-- A script that begins with a command has no DECODE exactly when that command's byte is not DECODE's and the rest has none. -/
theorem decodeFree_command_cons {p : InPorts} {rd : Bool} {rest : List HostStep} :
    decodeFree (⟨.command p, rd⟩ :: rest) = true ↔ decodeCommand p.cmd ≠ .ok .decode ∧ decodeFree rest = true := by
  rw [decodeFree]
  split <;> simp [*]

/-- The rest of a script without a DECODE has none. -/
theorem decodeFree_tail {l : List HostStep} (h : decodeFree l = true) : decodeFree l.tail = true := by
  match l, h with
  | [], _ => rfl
  | ⟨.wait, _⟩ :: _, h => exact h
  | ⟨.commandEarly _, _⟩ :: _, h => exact h
  | ⟨.command _, _⟩ :: _, h => exact (decodeFree_command_cons.1 h).2

/-- A step over such a script waits or runs a command that is no DECODE. -/
theorem step_temp_of_decodeFree {s t : State} (hfree : decodeFree s.inbox = true) (h : step s = .next t) :
    t.temp = s.temp := by
  rcases step_cases h with ⟨_, rfl, -⟩ | ⟨p, rd, rest, i, hinbox, hdecode, hexec⟩
  · rfl
  · obtain ⟨hne, -⟩ := decodeFree_command_cons.1 (hinbox ▸ hfree)
    have hi : i ≠ .decode := fun hi => hne (hi ▸ hdecode)
    calc t.temp = ((s.beginStep rd rest).setInp p).temp := exec_temp_of_ne_decode hexec hi
      _ = s.temp := rfl

/-- A run over such a script keeps `TEMP`. -/
theorem run_temp_of_decodeFree :
    ∀ k s t, run k s = .next t → decodeFree s.inbox = true → t.temp = s.temp := by
  refine run_rel (fun _ _ => rfl) fun s t u hstep ih hfree => ?_
  have htfree : decodeFree t.inbox = true := step_inbox hstep ▸ decodeFree_tail hfree
  exact (ih htfree).trans (step_temp_of_decodeFree hfree hstep)

/-- Settles O9: INIT is no DECODE, and a run from reset is a run over a script. -/
theorem tempHeldUntilTheFirstDecode : Obligations.TempHeldUntilTheFirstDecode :=
  ⟨fun _ _ _ h => exec_temp_of_ne_decode h (by simp),
    fun k s t hfree hrun => run_temp_of_decodeFree k s t hrun hfree,
    fun k _ t hfree hrun => run_temp_of_decodeFree k _ t hrun hfree⟩

end Sys2Proof.Machine
end

section
/-! SUPPORT. The command INIT (spec/42_init.md R131, R133, R134): its byte and its two outcomes. -/

namespace Sys2Proof.Machine

/-- INIT's byte is `0b000rr001` with the tag as `rr`, and every tag is decoded (R133). -/
theorem decodeCommand_init_byte (tag : Tag) : decodeCommand (0#3 ++ tag ++ 1#3) = .ok (.init tag) :=
  decodeCommand_ok_iff.2 rfl

/-- A second INIT is refused (R134). -/
theorem exec_init_of_initialised (tag : Tag) {s : State} (hs : s.initd = true) :
    exec (.init tag) s = .refused (.reason .alreadyInitialised) :=
  execInit_refused.2 ⟨hs, rfl⟩

/-- Settles O8: `INITD` decides between the two outcomes, and the tag is read from the byte and stored without a check. -/
theorem initStoresTheTagUnchecked : Obligations.InitStoresTheTagUnchecked := by
  refine ⟨fun tag s hs => exec_init_of_uninitialised tag hs, fun tag s hs => exec_init_of_initialised tag hs,
    decodeCommand_init_byte,
    ⟨decodeCommand_init_byte 0#2, decodeCommand_init_byte 1#2, decodeCommand_init_byte 2#2, decodeCommand_init_byte 3#2⟩,
    fun t h => ?_⟩
  obtain ⟨-, rfl⟩ := execInit_next.1 h
  exact ⟨rfl, rfl, rfl, rfl⟩

end Sys2Proof.Machine
end

section
/-! SUPPORT. The failure statuses (spec/60_exceptions.md R141 to R143): the status of an answer is a function of the command and of the
state it runs in, and each failure status has one command and one condition. -/

namespace Sys2Proof.Machine

/-- The status a command gives when it answers, by the conditions of R141 to R143; a refusal is not an answer. -/
def answerStatus (s : State) : Instr → Status
  | .init _ => .ok
  | .decode =>
    if s.inp.xok = false then .transportError
    else if variantOf s.res = none then .unsupportedVariant
    else .ok
  | .encode => if inRange (dinUnits s.inp) = true then .ok else .invalidRange

theorem Status.code_injective : Function.Injective Status.code := by
  intro st st'
  cases st <;> cases st' <;> decide

/-- Every answer puts `answerStatus` on the port `ST`. -/
theorem exec_stOut {i : Instr} {s t : State} (h : exec i s = .next t) : t.stOut = some (answerStatus s i).code := by
  rcases exec_cases h with ⟨_, rfl, -, rfl⟩ | ⟨rfl, -, hx, rfl⟩ | ⟨rfl, -, hx, hv, rfl⟩ | ⟨v, rfl, -, hx, hv, rfl⟩ |
    ⟨rfl, hr, rfl⟩ | ⟨rfl, hr, rfl⟩
  · rfl
  · simp [answerStatus, hx]
  · simp [answerStatus, hx, hv]
  · simp [answerStatus, hx, hv]
  · simp [answerStatus, hr]
  · simp [answerStatus, hr]

/-- An answer shows a status's code exactly when that status is its own. -/
theorem exec_stOut_eq_code_iff {i : Instr} {s t : State} (h : exec i s = .next t) (st : Status) :
    t.stOut = some st.code ↔ answerStatus s i = st := by
  rw [exec_stOut h, Option.some_inj, Status.code_injective.eq_iff]

/-- The conditions of R141, R142 and R143, but for `INITD`, which no answered DECODE has clear. -/
theorem answerStatus_eq_failure_iff (s : State) (i : Instr) :
    (answerStatus s i = .invalidRange ↔ i = .encode ∧ inRange (dinUnits s.inp) = false) ∧
    (answerStatus s i = .unsupportedVariant ↔ i = .decode ∧ s.inp.xok = true ∧ variantOf s.res = none) ∧
    (answerStatus s i = .transportError ↔ i = .decode ∧ s.inp.xok = false) := by
  cases i with
  | init tag => simp [answerStatus]
  | decode =>
    simp only [answerStatus]
    split_ifs <;> simp [*]
  | encode =>
    simp only [answerStatus]
    split_ifs <;> simp [*]

theorem inRange_eq_false_iff (X : Int) : inRange X = false ↔ X < -14080 ∨ 32000 < X := by
  rw [← Bool.not_eq_true, inRange_iff]
  omega

theorem variantOf_eq_none_iff_ne (tag : Tag) : variantOf tag = none ↔ tag ≠ 0#2 ∧ tag ≠ 1#2 := by
  revert tag
  decide

/-- An answered DECODE left the sentinel unless its status is OK (R103, R104). -/
theorem exec_decode_temp_of_status_ne_ok {s t : State} (h : exec .decode s = .next t)
    (hst : answerStatus s .decode ≠ .ok) : t.temp = Config.sentinel := by
  have hstOut := exec_stOut h
  obtain ⟨-, ⟨-, rfl⟩ | ⟨-, -, rfl⟩ | ⟨v, -, -, rfl⟩⟩ := execDecode_next.1 h
  · rfl
  · rfl
  · exact absurd (Status.code_injective (Option.some_inj.1 hstOut)).symm hst

/-- An ENCODE that answers InvalidRange writes nothing but its status, so it gives no bytes (R141). -/
theorem eq_respond_of_exec_encode_of_not_inRange {s t : State} (h : exec .encode s = .next t)
    (hr : inRange (dinUnits s.inp) = false) : t = s.respond .invalidRange none := by
  have h : execEncode s = .next t := h
  rw [execEncode_eq, hr] at h
  cases h
  rfl

/-- Settles O32: each status code is read back as `answerStatus`, whose conditions are the three rules'; that a DECODE found `INITD`
set is part of its having answered. -/
theorem failureStatusesHaveOneCause : Obligations.FailureStatusesHaveOneCause := by
  intro i s t h
  have hstOut (st : Status) : t.stOut = some st.code ↔ answerStatus s i = st := exec_stOut_eq_code_iff h st
  obtain ⟨hrange, hvariant, htransport⟩ := answerStatus_eq_failure_iff s i
  have hinitd : i = .decode → s.initd = true := by
    rintro rfl
    exact (execDecode_next.1 h).1
  refine ⟨?_, ?_, ?_, fun hst => ?_, fun hst => ?_, fun hst => ?_⟩
  · rw [← inRange_eq_false_iff]
    exact (hstOut .invalidRange).trans hrange
  · rw [← variantOf_eq_none_iff_ne]
    refine (hstOut .unsupportedVariant).trans (hvariant.trans ?_)
    exact ⟨fun ⟨hi, hx, hv⟩ => ⟨hi, hx, hinitd hi, hv⟩, fun ⟨hi, hx, _, hv⟩ => ⟨hi, hx, hv⟩⟩
  · refine (hstOut .transportError).trans (htransport.trans ?_)
    exact ⟨fun ⟨hi, hx⟩ => ⟨hi, hinitd hi, hx⟩, fun ⟨hi, _, hx⟩ => ⟨hi, hx⟩⟩
  · obtain ⟨rfl, hr⟩ := hrange.1 ((hstOut .invalidRange).1 hst)
    obtain rfl := eq_respond_of_exec_encode_of_not_inRange h hr
    exact ⟨rfl, rfl, rfl, rfl⟩
  · have hstatus := (hstOut .unsupportedVariant).1 hst
    obtain ⟨rfl, -⟩ := hvariant.1 hstatus
    exact exec_decode_temp_of_status_ne_ok h (by simp [hstatus])
  · have hstatus := (hstOut .transportError).1 hst
    obtain ⟨rfl, -⟩ := htransport.1 hstatus
    exact exec_decode_temp_of_status_ne_ok h (by simp [hstatus])

end Sys2Proof.Machine
end

section
/-! SUPPORT. The order of the checks on a presented command (spec/60_exceptions.md R145). -/

namespace Sys2Proof.Machine

/-- A presented byte that decodes runs its instruction, on the presented ports. -/
theorem step_of_decodeCommand_ok {s : State} {p : InPorts} {rd : Bool} {rest : List HostStep} {i : Instr}
    (hinbox : s.inbox = ⟨.command p, rd⟩ :: rest) (hi : decodeCommand p.cmd = .ok i) :
    step s = exec i ((s.beginStep rd rest).setInp p) := by
  have hfetch : fetch s = .command i ((s.beginStep rd rest).setInp p) := by simp [fetch, hinbox, decodePresented, hi]
  rw [step, hfetch]

/-- Settles O33: the byte is decoded before the instruction runs, and the instruction's outcome under each of its conditions is
known; taking the command from the script changes none of the registers that those conditions read. -/
theorem outcomeDecidedInOrder : Obligations.OutcomeDecidedInOrder := by
  intro s p rd rest hinbox
  refine ⟨fun e he => step_of_decodeCommand_error hinbox he, fun tag hd => ?_, fun hd => ?_, fun hd => ?_⟩ <;>
    rw [step_of_decodeCommand_ok hinbox hd]
  · exact ⟨fun hs => exec_init_of_initialised tag hs, fun hs => ⟨_, exec_init_of_uninitialised tag hs, rfl⟩⟩
  · refine ⟨fun hs => decodeBeforeInitIsRefused _ hs, fun hs hx => ⟨_, decodeTransportFailureWritesSentinel _ hs hx, rfl⟩,
      fun hs hx hres => ⟨_, decodeUnsupportedTagWritesSentinel _ hs hx hres, rfl⟩, fun hs hx hres => ?_⟩
    obtain ⟨v, hv⟩ := exists_variantOf_of_supported hres
    exact ⟨_, exec_decode_of_supported hs hx hv, rfl⟩
  · obtain ⟨haccepted, hrejected⟩ := encodeAcceptsExactlyTheValidRange
    refine ⟨fun hout => ⟨_, hrejected _ ?_, rfl⟩, fun hlo hhi => ?_⟩
    · rintro ⟨hlo, hhi⟩
      exact hout.elim hlo.not_gt hhi.not_gt
    · obtain ⟨t, h, hok, -⟩ := haccepted ((s.beginStep rd rest).setInp p) ⟨hlo, hhi⟩
      exact ⟨t, h, hok⟩

end Sys2Proof.Machine
end

section
/-! SUPPORT. The state after reset (spec/70_reset_and_hazards.md R170). -/

namespace Sys2Proof.Machine

/-- Settles O1: `State.reset` sets the three registers and the response field by field, and `TEMP_O` shows `TEMP`. -/
theorem resetStateAsTabulated : Obligations.ResetStateAsTabulated := by
  have htemp : State.reset.temp = 0x00000000#32 := rfl
  have htempO : State.reset.tempO = 0x00000000#32 := (State.tempO_eq_temp State.reset).trans htemp
  exact ⟨rfl, rfl, htemp, htempO, rfl⟩

end Sys2Proof.Machine
end

section
/-! SUPPORT. The machine's invariant (spec/10_state.md R24; spec/60_exceptions.md R140): the words `TEMP` may hold, the responses a
command may give, and the operations that keep `State.Inv`. -/

namespace Sys2Proof.Machine

theorem legalTemp_zero (res : Tag) : legalTemp res 0#32 := .inr (.inl rfl)

theorem legalTemp_sentinel (res : Tag) : legalTemp res Config.sentinel := .inl rfl

/-- Every decoded word lies in the variant's range and is a multiple of its step (R109). -/
theorem decodable_decodeTemp (v : Variant) (raw : Raw) : decodable v (decodeTemp v raw) := by
  have hlo := raw.le_toInt
  have hhi := raw.toInt_lt
  rw [decodable, decodeTemp_toInt]
  cases v with
  | res9 => simp only [Variant.stepUnits]; omega
  | res11 => simp only [Variant.stepUnits]; omega

theorem legalTemp_decodeTemp {res : Tag} {v : Variant} (hv : variantOf res = some v) (raw : Raw) :
    legalTemp res (decodeTemp v raw) :=
  .inr (.inr ⟨v, hv, decodable_decodeTemp v raw⟩)

/-- A response without bytes is legal when its status is no failure of a DECODE, or when the sentinel stands in `TEMP`. -/
theorem legalResponse_without_bytes {W : Celsius} {st : Status}
    (h : st = .unsupportedVariant ∨ st = .transportError → W = Config.sentinel) : legalResponse W ⟨st, none⟩ :=
  ⟨fun _ _ hbytes => (nomatch hbytes), h⟩

/-- The bytes of an accepted threshold are a signed degree of the valid range and a flag (R81 to R83). -/
theorem legalResponse_encodeBytes (W : Celsius) {X : Int} (hr : inRange X = true) :
    legalResponse W ⟨.ok, some (encodeBytes X)⟩ := by
  obtain ⟨hlo, hhi⟩ := (inRange_iff X).1 hr
  obtain ⟨hmin, hmax⟩ := tdiv_256_bounds hlo hhi
  have hflag : lowByte X = 0#8 ∨ lowByte X = Config.halfFlag := by
    rw [lowByte]
    split
    · exact .inr rfl
    · exact .inl rfl
  refine ⟨?_, fun hfailed => by simp at hfailed⟩
  rintro _ _ ⟨⟩
  rw [highByte_toInt hlo hhi]
  exact ⟨rfl, hmin, hmax, hflag⟩

/-- The registers' part of the invariant does not speak of the script, the ports or the read, and no response is a legal one. -/
theorem State.Inv.beginStep {s : State} (hs : s.Inv) (rd : Bool) (rest : List HostStep) : (s.beginStep rd rest).Inv :=
  ⟨hs.uninitialised, hs.temp_legal, fun _ hresp => nomatch hresp⟩

theorem State.Inv.setInp {s : State} (hs : s.Inv) (p : InPorts) : (s.setInp p).Inv :=
  ⟨hs.uninitialised, hs.temp_legal, hs.response_legal⟩

/-- A command that writes no register keeps the invariant when its response is legal. -/
theorem State.Inv.respond {s : State} (hs : s.Inv) {st : Status} {tx : Option (Byte × Byte)}
    (hresp : legalResponse s.temp ⟨st, tx⟩) : (s.respond st tx).Inv :=
  ⟨hs.uninitialised, hs.temp_legal, fun _ hr => Option.some.inj hr ▸ hresp⟩

/-- An initialised block meets the invariant when its `TEMP` and its response are legal. -/
theorem inv_respond_of_initialised {s : State} (hs : s.initd = true) (htemp : legalTemp s.res s.temp) {st : Status}
    {tx : Option (Byte × Byte)} (hresp : legalResponse s.temp ⟨st, tx⟩) : (s.respond st tx).Inv :=
  ⟨fun hunset => absurd (hs.symm.trans hunset) (by decide), htemp, fun _ hr => Option.some.inj hr ▸ hresp⟩

/-- A DECODE, which finds the block initialised, leaves the invariant when its word and its response are legal. -/
theorem inv_setTemp_respond {s : State} {W : Celsius} (hs : s.initd = true) (htemp : legalTemp s.res W) {st : Status}
    {tx : Option (Byte × Byte)} (hresp : legalResponse W ⟨st, tx⟩) : ((s.setTemp W).respond st tx).Inv :=
  inv_respond_of_initialised (s := s.setTemp W) hs htemp hresp

/-- Every instruction keeps the invariant. -/
theorem exec_keeps_inv {i : Instr} {s t : State} (hs : s.Inv) (h : exec i s = .next t) : t.Inv := by
  rcases exec_cases h with ⟨tag, -, hunset, rfl⟩ | ⟨-, hset, -, rfl⟩ | ⟨-, hset, -, -, rfl⟩ | ⟨v, -, hset, -, hv, rfl⟩ |
    ⟨-, hr, rfl⟩ | ⟨-, -, rfl⟩
  · obtain ⟨-, hzero⟩ := hs.uninitialised hunset
    have htemp : legalTemp tag s.temp := hzero ▸ legalTemp_zero tag
    exact inv_respond_of_initialised rfl htemp (legalResponse_without_bytes (by simp))
  · exact inv_setTemp_respond hset (legalTemp_sentinel _) (legalResponse_without_bytes fun _ => rfl)
  · exact inv_setTemp_respond hset (legalTemp_sentinel _) (legalResponse_without_bytes fun _ => rfl)
  · exact inv_setTemp_respond hset (legalTemp_decodeTemp hv _) (legalResponse_without_bytes (by simp))
  · exact hs.respond (legalResponse_encodeBytes _ hr)
  · exact hs.respond (legalResponse_without_bytes (by simp))

/-- Settles O3: a step begins by clearing the response, then waits or runs an instruction, which keeps the invariant. -/
theorem everyStepKeepsTheInvariant : Obligations.EveryStepKeepsTheInvariant := by
  intro s t hs hstep
  rcases step_cases hstep with ⟨rd, rfl, -⟩ | ⟨p, rd, rest, i, -, -, hexec⟩
  · exact hs.beginStep rd _
  · exact exec_keeps_inv ((hs.beginStep rd rest).setInp p) hexec

/-- Settles O2: the registers are clear, and there is no response. -/
theorem resetMeetsTheInvariant : Obligations.ResetMeetsTheInvariant where
  uninitialised _ := ⟨rfl, rfl⟩
  temp_legal := legalTemp_zero _
  response_legal _ hresp := nomatch hresp

end Sys2Proof.Machine
end

section
/-! SUPPORT. The encoding as a whole (spec/30_encoding.md R63, R67): the decoder inverts the encoder. -/

namespace Sys2Proof.Machine

/-- Settles O41: `decodeCommand_ok_iff` holds of every instruction, as each of them is well-formed. -/
theorem commandByteRoundTrip : Obligations.CommandByteRoundTrip :=
  fun _ _ _ => decodeCommand_ok_iff

/-- Settles O44: each written-out byte is its instruction's encoding. -/
theorem writtenOutBytesDecode : Obligations.WrittenOutBytesDecode :=
  ⟨decodeCommand_ok_iff.2 rfl, decodeCommand_ok_iff.2 rfl, decodeCommand_ok_iff.2 rfl, decodeCommand_ok_iff.2 rfl⟩

end Sys2Proof.Machine
end

section
/-! SUPPORT. What the next step does, by the head of the host's script (spec/60_exceptions.md R155, spec/70_reset_and_hazards.md R172,
R176), and what it does not read. -/

namespace Sys2Proof.Machine

/-- With nothing left in the script the block waits (log 4). -/
theorem step_of_empty {s : State} (hinbox : s.inbox = []) : step s = .next (s.beginStep false []) := by
  simp only [step, fetch, hinbox]

theorem step_of_wait {s : State} {rd : Bool} {rest : List HostStep} (hinbox : s.inbox = ⟨.wait, rd⟩ :: rest) :
    step s = .next (s.beginStep rd rest) := by
  simp only [step, fetch, hinbox]

/-- A command presented early is refused, whatever it is (log 6). -/
theorem step_of_commandEarly {s : State} {p : InPorts} {rd : Bool} {rest : List HostStep}
    (hinbox : s.inbox = ⟨.commandEarly p, rd⟩ :: rest) : step s = .refused (.reason .concurrentCommand) := by
  simp only [step, fetch, hinbox, present_refuse]

/-- Settles O4: both waiting forms only begin the step, and in the state after reset that changes nothing. -/
theorem blockWaitsWithoutACommand : Obligations.BlockWaitsWithoutACommand := by
  refine ⟨fun s hinbox => ?_, fun s rd rest hinbox => step_of_wait hinbox, step_of_empty rfl⟩
  rw [step_of_empty hinbox, ← hinbox]
  rfl

/-- Settles O5: the state that the command runs in is the begun step with the ports driven; the premise that the instruction is
well-formed is not needed. -/
theorem stepRunsTheDecodedCommand : Obligations.StepRunsTheDecodedCommand :=
  fun _ _ _ _ _ hinbox hdecode _ => step_of_decodeCommand_ok hinbox hdecode

/-- The word of a table row of eight bits is decoded as a command byte. -/
theorem decodeCommand_of_decodeTableWord {w : Nat} {i : Instr} (h : decodeTableWord 8 w = some i) :
    decodeCommand (tableByte 8 w) = .ok i := by
  rw [decodeTableWord, if_pos rfl] at h
  cases hd : decodeCommand (tableByte 8 w) with
  | error e => rw [hd] at h; cases h
  | ok j => rw [hd] at h; cases h; rfl

theorem tableByte_eight (w : Nat) : tableByte 8 w = BitVec.ofNat 8 w := by
  rw [tableByte]
  exact BitVec.eq_of_toNat_eq (by simp)

/-- When the placed byte stands first in the script as a command with the ports `p`, the next step runs its instruction on them. -/
theorem step_placeCommand {s : State} {b : Byte} {p : InPorts} {rd : Bool} {rest : List HostStep} {i : Instr}
    (hplace : placeCommand s b = { s with inbox := ⟨.command { p with cmd := b }, rd⟩ :: rest })
    (hdecode : decodeCommand b = .ok i) :
    step (placeCommand s b) = exec i { s with
      inbox := rest, inp := { p with cmd := b }, resp := none, tempRead := if rd then some s.temp else none } := by
  rw [hplace]
  exact step_of_decodeCommand_ok (p := { p with cmd := b }) (rd := rd) (rest := rest) rfl hdecode

/-- Settles O6: whatever stands first in the script, the placed byte is presented there with the ports of a command. -/
theorem placedWordRunsNext : Obligations.PlacedWordRunsNext := by
  intro s w i hword
  have hdecode : decodeCommand (BitVec.ofNat 8 w) = .ok i := tableByte_eight w ▸ decodeCommand_of_decodeTableWord hword
  rw [State.withFetchWord, tableByte_eight]
  refine ⟨fun hinbox => ?_, fun rd rest hinbox => ?_, fun p rd rest hinbox => ?_⟩
  · rw [step_placeCommand (p := s.inp) (rd := false) (rest := []) (by simp only [placeCommand, hinbox]) hdecode, ← hinbox]
    rfl
  · exact step_placeCommand (by simp only [placeCommand, hinbox]) hdecode
  · rcases hinbox with hinbox | hinbox
    · exact step_placeCommand (by simp only [placeCommand, hinbox]) hdecode
    · exact step_placeCommand (by simp only [placeCommand, hinbox]) hdecode

/-- Settles O34: a step looks at the script alone before it clears the response and the read. -/
theorem noStepReadsAnEarlierResponse : Obligations.NoStepReadsAnEarlierResponse := by
  intro s r q
  have hfetch : fetch { s with resp := r, tempRead := q } = fetch s := by
    obtain ⟨res, initd, temp, inp, inbox, resp, tempRead⟩ := s
    rcases inbox with _ | ⟨⟨_ | p | p, rd⟩, rest⟩ <;> rfl
  rw [step, step, hfetch]

/-- Settles O37: the read is recorded as the step begins, and no instruction touches the record. -/
theorem tempOReadSeesTheValueBefore : Obligations.TempOReadSeesTheValueBefore := by
  intro s t p rest hinbox hstep
  rcases step_cases hstep with ⟨_, -, hno⟩ | ⟨p', rd, rest', i, hinbox', -, hexec⟩
  · exact absurd hinbox (hno p true rest)
  · cases hinbox.symm.trans hinbox'
    obtain ⟨-, -, hread⟩ := exec_frame hexec
    exact ⟨hread, State.tempO_eq_temp t⟩

end Sys2Proof.Machine
end

section
/-! SUPPORT. The derived rules of DECODE (spec/41_decode.md R107 to R111; spec/00_scope.md R8): the arithmetic shift, the masked raw
value, the weights of its bits, the table of results, and the sentinel. -/

namespace Sys2Proof.Machine

/-- Settles O14: the two paths' common count is the floor division, which is the arithmetic shift. -/
theorem decodeIsOneArithmeticShift : Obligations.DecodeIsOneArithmeticShift := by
  refine ⟨fun v raw => ⟨decodeCount_eq_ediv v raw, ?_⟩, fun s v hs hx hv => ?_⟩
  · rw [decodeCount_eq_ediv, BitVec.toInt_sshiftRight, Int.shiftRight_eq_div_pow]
    norm_cast
  · rw [← decodeCount_eq_ediv]
    exact exec_decode_of_supported hs hx hv

/-- The raw value with its low `SHIFT` bits cleared (R108). -/
def maskedRaw (v : Variant) (raw : Raw) : Raw := raw &&& ~~~(BitVec.ofNat 16 (2 ^ v.shift - 1))

theorem getLsbD_maskedRaw (v : Variant) (raw : Raw) (k : Nat) :
    (maskedRaw v raw).getLsbD k = (decide (v.shift ≤ k) && raw.getLsbD k) := by
  by_cases hk : k < 16
  · rw [maskedRaw, BitVec.getLsbD_and, BitVec.getLsbD_not, BitVec.getLsbD_ofNat, Nat.testBit_two_pow_sub_one]
    rcases lt_or_ge k v.shift with hlow | hhigh
    · simp [hk, hlow, hlow.not_ge]
    · simp [hk, hhigh, hhigh.not_gt]
  · simp [BitVec.getLsbD_of_ge _ _ (not_lt.1 hk)]

/-- Clearing the low bits takes off the remainder by their weight. -/
theorem toNat_maskedRaw (v : Variant) (raw : Raw) :
    (maskedRaw v raw).toNat = raw.toNat / 2 ^ v.shift * 2 ^ v.shift := by
  refine Nat.eq_of_testBit_eq fun k => ?_
  rw [BitVec.testBit_toNat, getLsbD_maskedRaw, Nat.testBit_mul_two_pow, Nat.testBit_div_two_pow, BitVec.testBit_toNat]
  by_cases hk : v.shift ≤ k
  · rw [Nat.sub_add_cancel hk]
  · simp [hk]

theorem toInt_maskedRaw (v : Variant) (raw : Raw) : (maskedRaw v raw).toInt = raw.toInt - raw.toInt % v.stepUnits := by
  have hmasked := toNat_maskedRaw v raw
  rw [raw_toInt, raw_toInt, hmasked]
  cases v with
  | res9 => simp only [Variant.shift, Variant.stepUnits]; omega
  | res11 => simp only [Variant.shift, Variant.stepUnits]; omega

/-- The decoded word is the masked raw value, sign-extended (R108). -/
theorem decodeTemp_eq_signExtend (v : Variant) (raw : Raw) : decodeTemp v raw = (maskedRaw v raw).signExtend 32 := by
  apply BitVec.eq_of_toInt_eq
  rw [decodeTemp_toInt, BitVec.toInt_signExtend_of_le (by decide), toInt_maskedRaw]

/-- Raw values that agree from bit `SHIFT` up have the same masked value. -/
theorem maskedRaw_congr {v : Variant} {raw raw' : Raw} (h : ∀ k, v.shift ≤ k → raw.getLsbD k = raw'.getLsbD k) :
    maskedRaw v raw = maskedRaw v raw' := by
  refine BitVec.eq_of_getLsbD_eq fun k _ => ?_
  rw [getLsbD_maskedRaw, getLsbD_maskedRaw]
  by_cases hk : v.shift ≤ k
  · rw [h k hk]
  · simp [hk]

/-- Settles O15: the decoded word is a function of the masked raw value. -/
theorem decodeSignExtendsTheMaskedValue : Obligations.DecodeSignExtendsTheMaskedValue := by
  refine ⟨stepUnits_eq_two_pow, fun v raw => ⟨decodeTemp_eq_signExtend v raw, ?_⟩, fun v raw raw' h => ?_⟩
  · exact (decodeTemp_toInt v raw).trans (toInt_maskedRaw v raw).symm
  · rw [decodeTemp_eq_signExtend, decodeTemp_eq_signExtend, maskedRaw_congr h]

/-- The bits of a number from place `m` to below place `n` weigh what lies between its remainders by `2 ^ m` and by `2 ^ n`. -/
theorem sum_testBit_Ico (x : Nat) {m n : Nat} (h : m ≤ n) :
    x % 2 ^ m + ∑ k ∈ Finset.Ico m n, (if x.testBit k then 2 ^ k else 0) = x % 2 ^ n := by
  induction n, h using Nat.le_induction with
  | base => simp
  | succ n hmn ih =>
    rw [Finset.sum_Ico_succ_top hmn, ← add_assoc, ih, pow_succ, Nat.mod_mul, ← Nat.toNat_testBit]
    cases x.testBit n <;> simp

/-- Bit 15 weighs -2^15, and the bits below it keep their weights (R8). -/
theorem raw_toInt_eq_sign_add (raw : Raw) :
    raw.toInt = (if raw.getLsbD 15 then -2 ^ 15 else 0) + (raw.toNat % 2 ^ 15 : Nat) := by
  have hlt := raw.isLt
  rw [raw_toInt, raw_bit15]
  simp only [decide_eq_true_eq]
  omega

/-- A step divides 2^16, so the signed raw value leaves the remainder of the unsigned one. -/
theorem raw_toInt_emod_stepUnits (v : Variant) (raw : Raw) : raw.toInt % v.stepUnits = (raw.toNat % 2 ^ v.shift : Nat) := by
  rw [raw_toInt]
  cases v with
  | res9 => simp only [Variant.shift, Variant.stepUnits]; omega
  | res11 => simp only [Variant.shift, Variant.stepUnits]; omega

/-- Settles O17: the decoded value is the raw value less the weights of the bits below `SHIFT`. -/
theorem decodeBitWeights : Obligations.DecodeBitWeights := by
  refine ⟨fun v => ?_, fun v raw => ?_⟩
  · cases v <;> decide
  · have hshift : v.shift ≤ 15 := by cases v <;> decide
    have hbits := congrArg (Nat.cast (R := Int)) (sum_testBit_Ico raw.toNat hshift)
    simp only [BitVec.testBit_toNat, Nat.cast_add, Nat.cast_sum, Nat.cast_ite, Nat.cast_pow, Nat.cast_ofNat,
      Nat.cast_zero] at hbits
    rw [decodeTemp_toInt, raw_toInt_emod_stepUnits, raw_toInt_eq_sign_add, ← hbits]
    ring

/-! ### The table of results -/

/-- A non-negative raw value decodes to no negative one. -/
theorem decodeTemp_nonneg_of_nonNegative (v : Variant) {raw : Raw} (hbit : raw.getLsbD 15 = false) :
    0 ≤ (decodeTemp v raw).toInt := by
  have hraw : 0 ≤ raw.toInt := raw_toInt_of_nonNegative hbit ▸ Int.natCast_nonneg _
  rw [decodeTemp_toInt]
  cases v with
  | res9 => simp only [Variant.stepUnits]; omega
  | res11 => simp only [Variant.stepUnits]; omega

/-- A negative raw value decodes to at most minus one step. -/
theorem decodeTemp_le_of_negative (v : Variant) {raw : Raw} (hbit : raw.getLsbD 15 = true) :
    (decodeTemp v raw).toInt ≤ -v.stepUnits := by
  have hraw : raw.toInt < 0 := raw_toInt_of_negative hbit ▸ Int.negSucc_lt_zero _
  rw [decodeTemp_toInt]
  cases v with
  | res9 => simp only [Variant.stepUnits]; omega
  | res11 => simp only [Variant.stepUnits]; omega

/-- Every word of a variant's range is the decode of the raw value with the same signed value. -/
theorem exists_decodeTemp_eq {v : Variant} {W : Celsius} (h : decodable v W) : ∃ raw, decodeTemp v raw = W := by
  obtain ⟨hlo, hhi, hmultiple⟩ := h
  obtain ⟨hpos, -⟩ := stepUnits_bounds v
  have hraw : (BitVec.ofInt 16 W.toInt).toInt = W.toInt :=
    BitVec.toInt_ofInt_eq_self (by decide) (by omega) (by omega)
  refine ⟨BitVec.ofInt 16 W.toInt, BitVec.eq_of_toInt_eq ?_⟩
  rw [decodeTemp_toInt, hraw, hmultiple, sub_zero]

/-- A DECODE that answers OK wrote the word of the tag's variant. -/
theorem temp_of_exec_decode_ok {s t : State} (h : exec .decode s = .next t) (hok : t.resp = some ⟨.ok, none⟩) :
    ∃ v, variantOf s.res = some v ∧ t.temp = decodeTemp v (rawOf s.inp) := by
  obtain ⟨-, ⟨-, rfl⟩ | ⟨-, -, rfl⟩ | ⟨v, -, hv, rfl⟩⟩ := execDecode_next.1 h
  · nomatch hok
  · nomatch hok
  · exact ⟨v, hv, rfl⟩

/-- Settles O16: the tag selects the variant whose numbers stand in the table's row, and the sign bit selects the column. -/
theorem decodeResultTable : Obligations.DecodeResultTable := by
  refine ⟨fun s t h hok => ?_, fun v W hW => exists_decodeTemp_eq hW⟩
  obtain ⟨v, hv, htemp⟩ := temp_of_exec_decode_ok h hok
  obtain ⟨hlo, hhi, hmultiple⟩ : decodable v t.temp := htemp ▸ decodable_decodeTemp v (rawOf s.inp)
  have hnonneg : (rawOf s.inp).getLsbD 15 = false → 0 ≤ t.temp.toInt :=
    fun hbit => htemp ▸ decodeTemp_nonneg_of_nonNegative v hbit
  have hneg : (rawOf s.inp).getLsbD 15 = true → t.temp.toInt ≤ -v.stepUnits :=
    fun hbit => htemp ▸ decodeTemp_le_of_negative v hbit
  cases v with
  | res9 =>
    have hres : s.res = 0#2 := (variantOf_eq_res9 _).1 hv
    have hne : s.res ≠ 1#2 := by simp [hres]
    exact ⟨.inl hres, fun _ hbit => ⟨hnonneg hbit, hhi⟩, fun _ hbit => ⟨hlo, hneg hbit⟩, fun _ => hmultiple,
      fun h => absurd h hne, fun h => absurd h hne, fun h => absurd h hne⟩
  | res11 =>
    have hres : s.res = 1#2 := (variantOf_eq_res11 _).1 hv
    have hne : s.res ≠ 0#2 := by simp [hres]
    exact ⟨.inr hres, fun h => absurd h hne, fun h => absurd h hne, fun h => absurd h hne,
      fun _ hbit => ⟨hnonneg hbit, hhi⟩, fun _ hbit => ⟨hlo, hneg hbit⟩, fun _ => hmultiple⟩

/-- The sentinel lies below every decodable word (R111). -/
theorem decodeTemp_ne_sentinel (v : Variant) (raw : Raw) : decodeTemp v raw ≠ Config.sentinel := by
  obtain ⟨hlo, -, -⟩ := decodable_decodeTemp v raw
  intro h
  rw [h] at hlo
  exact absurd hlo (by decide)

/-- Settles O22: a DECODE writes a decoded word with OK, or the sentinel with a failure status. -/
theorem sentinelMarksAFailedDecode : Obligations.SentinelMarksAFailedDecode := by
  intro s t h
  obtain ⟨hs, -⟩ := execDecode_next.1 h
  rcases exec_decode_of_initialised hs with ⟨v, -, h'⟩ | ⟨st, hst, h'⟩
  · obtain rfl := Host.Outcome.next.inj (h.symm.trans h')
    exact iff_of_false (decodeTemp_ne_sentinel v _) (not_not.2 rfl)
  · obtain rfl := Host.Outcome.next.inj (h.symm.trans h')
    exact iff_of_true rfl (by simp [hst])

/-- A DECODE of two given bytes under a supported tag answers OK, and this is the temperature it writes. -/
theorem exists_exec_decode_of_bytes {s : State} {v : Variant} {b0 b1 : Byte} (hs : s.initd = true) (hx : s.inp.xok = true)
    (hv : variantOf s.res = some v) (h0 : s.inp.rxb0 = b0) (h1 : s.inp.rxb1 = b1) :
    ∃ t, exec .decode s = .next t ∧ t.stOut = some 0#2 ∧ t.temp = decodeTemp v (b0 ++ b1) := by
  subst h0 h1
  exact ⟨_, exec_decode_of_supported hs hx hv, rfl, rfl⟩

theorem cwVal_decodeTemp (v : Variant) (raw : Raw) :
    cwVal (decodeTemp v raw) = ((raw.toInt - raw.toInt % v.stepUnits : Int) : Rat) / 256 := by
  rw [cwVal, decodeTemp_toInt]

/-- 0x4820 is 144 steps of 0.5 °C and 32 units, or 577 steps of 0.125 °C. -/
theorem cwVal_decodeTemp_0x4820 :
    cwVal (decodeTemp .res9 (0x48#8 ++ 0x20#8)) = 72 ∧ cwVal (decodeTemp .res11 (0x48#8 ++ 0x20#8)) = 72 + 1 / 8 := by
  have hraw : (0x48#8 ++ 0x20#8 : Raw).toInt = 18464 := rfl
  rw [cwVal_decodeTemp, cwVal_decodeTemp, hraw]
  norm_num [Variant.stepUnits]

/-- 0x4800 is a whole number of steps of either variant. -/
theorem cwVal_decodeTemp_0x4800 (v : Variant) : cwVal (decodeTemp v (0x48#8 ++ 0x00#8)) = 72 := by
  have hraw : (0x48#8 ++ 0x00#8 : Raw).toInt = 18432 := rfl
  rw [cwVal_decodeTemp, hraw]
  cases v <;> norm_num [Variant.stepUnits]

/-- Settles O25: either supported tag gives OK, and the bytes' temperature under its variant. -/
theorem wrongSupportedTagGoesUnnoticed : Obligations.WrongSupportedTagGoesUnnoticed := by
  intro s hs hx h0
  obtain ⟨hres9, hres11⟩ := cwVal_decodeTemp_0x4820
  refine ⟨fun h1 hres => ?_, fun h1 hres => ?_, fun h1 hres => ?_⟩
  · obtain ⟨t, h, hok, htemp⟩ := exists_exec_decode_of_bytes hs hx ((variantOf_eq_res9 _).2 hres) h0 h1
    exact ⟨t, h, hok, htemp ▸ hres9⟩
  · obtain ⟨t, h, hok, htemp⟩ := exists_exec_decode_of_bytes hs hx ((variantOf_eq_res11 _).2 hres) h0 h1
    exact ⟨t, h, hok, htemp ▸ hres11⟩
  · obtain ⟨v, hv⟩ := exists_variantOf_of_supported hres
    obtain ⟨t, h, hok, htemp⟩ := exists_exec_decode_of_bytes hs hx hv h0 h1
    exact ⟨t, h, hok, htemp ▸ cwVal_decodeTemp_0x4800 v⟩

end Sys2Proof.Machine
end

section
/-! SUPPORT. The register value of ENCODE's two bytes (spec/40_encode.md R85; it stands in place of the source's round trip,
spec/90_conflicts.md C1), and what a DECODE makes of it. -/

namespace Sys2Proof.Machine

/-- The value of ENCODE's bytes as a register, for the operand `X` and in units of 1/256 °C: the truncated degrees, and half a
degree when the flag is set. -/
def encodedUnits (X : Int) : Int := 256 * X.tdiv 256 + if 128 ≤ X.natAbs % 256 then 128 else 0

/-- In the valid range the two bytes hold that value, the high byte first. -/
theorem encodeBytes_toInt {X : Int} (hr : inRange X = true) : (highByte X ++ lowByte X : Raw).toInt = encodedUnits X := by
  obtain ⟨hlo, hhi⟩ := (inRange_iff X).1 hr
  have happend : (highByte X ++ lowByte X : Raw).toInt = 2 ^ 8 * (highByte X).toInt + (lowByte X).toNat :=
    BitVec.toInt_append
  rw [happend, highByte_toInt hlo hhi, lowByte_toNat, encodedUnits]
  push_cast
  rfl

/-- For `c ≥ 0` the value is c rounded down to a multiple of 0.5 °C. -/
theorem encodedUnits_of_nonneg {X : Int} (hX : 0 ≤ X) : encodedUnits X = 128 * (X / 128) := by
  rw [encodedUnits, tdiv_256, if_neg hX.not_gt]
  split <;> omega

/-- The value is `trunc(c)` when the flag is clear, and half a degree more when it is set. -/
theorem encodedUnits_of_flag_clear {X : Int} (hflag : X.natAbs % 256 < 128) : encodedUnits X = 256 * X.tdiv 256 := by
  rw [encodedUnits, if_neg hflag.not_ge, add_zero]

theorem encodedUnits_of_flag_set {X : Int} (hflag : 128 ≤ X.natAbs % 256) : encodedUnits X = 256 * X.tdiv 256 + 128 := by
  rw [encodedUnits, if_pos hflag]

/-- A negative `c` lies its fraction's magnitude below `trunc(c)`. -/
theorem tdiv_256_sub_of_neg {X : Int} (hX : X < 0) : 256 * X.tdiv 256 - X = (X.natAbs % 256 : Nat) := by
  rw [tdiv_256, if_pos hX]
  omega

/-- An ENCODE that answers bytes accepted its operand, and the bytes are the operand's. -/
theorem bytes_of_exec_encode {s t : State} {b0 b1 : Byte} (h : exec .encode s = .next t) (htx : t.txOut = some (b0, b1)) :
    inRange (dinUnits s.inp) = true ∧ t = s.respond .ok (some (b0, b1)) ∧ b0 = highByte (dinUnits s.inp) ∧
      b1 = lowByte (dinUnits s.inp) := by
  have h : execEncode s = .next t := h
  rw [execEncode_eq] at h
  obtain rfl := Host.Outcome.next.inj h
  cases hr : inRange (dinUnits s.inp) with
  | false => simp [hr] at htx
  | true =>
    obtain ⟨rfl, rfl⟩ : highByte (dinUnits s.inp) = b0 ∧ lowByte (dinUnits s.inp) = b1 := by
      simpa [hr, encodeBytes] using htx
    exact ⟨rfl, rfl, rfl, rfl⟩

/-- Settles O28: the bytes hold `encodedUnits`, whose distance from the operand is known in each of the law's cases. -/
theorem encodedRegisterValueLaw : Obligations.EncodedRegisterValueLaw := by
  intro s t b0 b1 h htx
  obtain ⟨hr, -, rfl, rfl⟩ := bytes_of_exec_encode h htx
  rw [encodeBytes_toInt hr]
  refine ⟨rfl, fun hX => ?_, fun hX hflag => ?_, fun hX hflag => ?_⟩
  · have hvalue : encodedUnits s.inp.din.toInt = 128 * (s.inp.din.toInt / 128) := encodedUnits_of_nonneg hX
    rw [dinUnits, hvalue]
    omega
  · rw [dinUnits, encodedUnits_of_flag_clear hflag, tdiv_256_sub_of_neg hX]
    omega
  · rw [dinUnits, encodedUnits_of_flag_set hflag, add_sub_right_comm, tdiv_256_sub_of_neg hX]
    omega

/-- The register value is a whole number of half degrees, and so of either variant's steps. -/
theorem encodedUnits_emod_stepUnits (v : Variant) (X : Int) : encodedUnits X % v.stepUnits = 0 := by
  rw [encodedUnits]
  cases v with
  | res9 => simp only [Variant.stepUnits]; split <;> omega
  | res11 => simp only [Variant.stepUnits]; split <;> omega

/-- Both variants decode the bytes of an accepted threshold to their register value. -/
theorem decodeTemp_encodeBytes_toInt (v : Variant) {X : Int} (hr : inRange X = true) :
    (decodeTemp v (highByte X ++ lowByte X)).toInt = encodedUnits X := by
  rw [decodeTemp_toInt, encodeBytes_toInt hr, encodedUnits_emod_stepUnits, sub_zero]

/-- A DECODE of two received bytes on an initialised block with a supported tag. -/
theorem exists_exec_decode_of_received {t : State} {v : Variant} (hs : t.initd = true) (hv : variantOf t.res = some v)
    (b0 b1 : Byte) :
    ∃ u, exec .decode (t.setInp { t.inp with rxb0 := b0, rxb1 := b1, xok := true }) = .next u ∧ u.stOut = some 0#2 ∧
      u.temp = decodeTemp v (b0 ++ b1) :=
  exists_exec_decode_of_bytes hs rfl hv rfl rfl

/-- Settles O29: ENCODE left the configuration, so the DECODE of its bytes answers OK, with their register value. -/
theorem decodeOfEncodedThreshold : Obligations.DecodeOfEncodedThreshold := by
  intro s t v b0 b1 h htx hs hv
  obtain ⟨hr, rfl, rfl, rfl⟩ := bytes_of_exec_encode h htx
  obtain ⟨u, hu, hok, htemp⟩ := exists_exec_decode_of_received (t := s.respond .ok _) hs hv (highByte _) (lowByte _)
  have hvalue : u.temp.toInt = encodedUnits s.inp.din.toInt := htemp ▸ decodeTemp_encodeBytes_toInt v hr
  exact ⟨u, hu, hok, fun hX => hvalue.trans (encodedUnits_of_nonneg hX),
    fun _ hflag => hvalue.trans (encodedUnits_of_flag_clear hflag),
    fun _ hflag => hvalue.trans (encodedUnits_of_flag_set hflag)⟩

end Sys2Proof.Machine
end

section
/-! SUPPORT. Runs over the host's script (spec/20_memory.md: commands take effect in order; log 1): a run consumes its part of the
script and sees nothing of what stands behind it. -/

namespace Sys2Proof.Machine

/-- A step that answers found an empty script, a wait, or a command whose byte decodes. -/
theorem step_next_cases {s t : State} (h : step s = .next t) :
    (s.inbox = [] ∧ t = s.beginStep false []) ∨
    (∃ rd rest, s.inbox = ⟨.wait, rd⟩ :: rest ∧ t = s.beginStep rd rest) ∨
    (∃ p rd rest i, s.inbox = ⟨.command p, rd⟩ :: rest ∧ decodeCommand p.cmd = .ok i ∧
      exec i ((s.beginStep rd rest).setInp p) = .next t) := by
  rcases fetch_cases s with ⟨hi, -⟩ | ⟨rd, rest, hi, -⟩ | ⟨p, rd, rest, hi, -⟩ | ⟨p, rd, rest, e, hi, hd, -⟩ |
    ⟨p, rd, rest, i, hi, hd, -⟩
  · exact .inl ⟨hi, Host.Outcome.next.inj (h.symm.trans (step_of_empty hi))⟩
  · exact .inr (.inl ⟨rd, rest, hi, Host.Outcome.next.inj (h.symm.trans (step_of_wait hi))⟩)
  · nomatch h.symm.trans (step_of_commandEarly hi)
  · nomatch h.symm.trans (step_of_decodeCommand_error hi hd)
  · exact .inr (.inr ⟨p, rd, rest, i, hi, hd, (step_of_decodeCommand_ok hi hd).symm.trans h⟩)

/-- No instruction reads the script. -/
theorem exec_with_inbox {i : Instr} {s t : State} (h : exec i s = .next t) (l : List HostStep) :
    exec i { s with inbox := l } = .next { t with inbox := l } := by
  cases i with
  | init tag =>
    obtain ⟨hs, rfl⟩ := execInit_next.1 h
    exact execInit_next.2 ⟨hs, rfl⟩
  | decode =>
    obtain ⟨hs, ⟨hx, rfl⟩ | ⟨hx, hv, rfl⟩ | ⟨v, hx, hv, rfl⟩⟩ := execDecode_next.1 h
    · exact execDecode_next.2 ⟨hs, .inl ⟨hx, rfl⟩⟩
    · exact execDecode_next.2 ⟨hs, .inr (.inl ⟨hx, hv, rfl⟩)⟩
    · exact execDecode_next.2 ⟨hs, .inr (.inr ⟨v, hx, hv, rfl⟩)⟩
  | encode =>
    rw [exec_encode_eq] at h ⊢
    cases h
    rfl

/-- A step that finds an item in the script does not see what stands behind the script. -/
theorem step_append {s t : State} (hne : s.inbox ≠ []) (h : step s = .next t) (l : List HostStep) :
    step { s with inbox := s.inbox ++ l } = .next { t with inbox := t.inbox ++ l } := by
  rcases step_next_cases h with ⟨hi, -⟩ | ⟨rd, rest, hi, rfl⟩ | ⟨p, rd, rest, i, hi, hd, hexec⟩
  · exact absurd hi hne
  · rw [hi]
    exact step_of_wait rfl
  · obtain ⟨hrest, -, -⟩ := exec_frame hexec
    rw [hi, hrest]
    exact (step_of_decodeCommand_ok rfl hd).trans (exec_with_inbox hexec (rest ++ l))

/-- A run of at least one step that answers begins with a step that answers. -/
theorem exists_step_of_run_succ {k : Nat} {s t : State} (h : run (k + 1) s = .next t) :
    ∃ u, step s = .next u ∧ run k u = .next t := by
  rcases step_total s with ⟨u, hs⟩ | ⟨q, hs⟩
  · exact ⟨u, hs, run_succ_next hs ▸ h⟩
  · nomatch (run_succ_refused hs).symm.trans h

/-- Running on from where a run arrived. -/
theorem run_add {j : Nat} {s t : State} (h : run j s = .next t) (k : Nat) : run (j + k) s = run k t := by
  induction j generalizing s with
  | zero =>
    cases h
    rw [Nat.zero_add]
  | succ j ih =>
    obtain ⟨u, hs, hu⟩ := exists_step_of_run_succ h
    rw [Nat.succ_add, run_succ_next hs, ih hu]

/-- A run consumes one item of the script in each step. -/
theorem run_inbox {k : Nat} {s t : State} (h : run k s = .next t) : t.inbox = s.inbox.drop k := by
  induction k generalizing s with
  | zero =>
    cases h
    rfl
  | succ k ih =>
    obtain ⟨u, hs, hu⟩ := exists_step_of_run_succ h
    rw [ih hu, step_inbox hs, List.drop_tail]

/-- A run within the script does not see what stands behind it. -/
theorem run_append {k : Nat} {s t : State} (hk : k ≤ s.inbox.length) (h : run k s = .next t) (l : List HostStep) :
    run k { s with inbox := s.inbox ++ l } = .next { t with inbox := t.inbox ++ l } := by
  induction k generalizing s with
  | zero =>
    cases h
    rfl
  | succ k ih =>
    obtain ⟨u, hs, hu⟩ := exists_step_of_run_succ h
    have hne : s.inbox ≠ [] := List.ne_nil_of_length_pos (by omega)
    have hrest : k ≤ u.inbox.length := by
      rw [step_inbox hs, List.length_tail]
      omega
    rw [run_succ_next (step_append hne hs l), ih hrest hu]

/-- Settles O7: the first part of the script runs without the second, leaves it, and the run goes on from there. -/
theorem commandsTakeEffectInOrder : Obligations.CommandsTakeEffectInOrder := by
  intro s t l l' h
  have hempty : t.inbox = [] := (run_inbox h).trans List.drop_length
  have hfirst : run l.length { s with inbox := l ++ l' } = .next { t with inbox := l' } := by
    simpa [hempty] using run_append (s := { s with inbox := l }) le_rfl h l'
  refine ⟨hfirst, ?_⟩
  rw [List.length_append, run_add hfirst]

end Sys2Proof.Machine
end

section
/-! SUPPORT. The host's duties (spec/60_exceptions.md R147, R148, R156; spec/70_reset_and_hazards.md R173): a script is admitted when
it has no first breach, and each step meets the breach that stands first or brings it one nearer. -/

namespace Sys2Proof.Machine

/-- `admitted` and `firstBreach` read the same duties: the first item breaks one, or the rest of the script decides both. -/
theorem duties_cons (initd : Bool) (item : HostStep) (rest : List HostStep) :
    (∃ q, firstBreach initd (item :: rest) = some (0, q) ∧ admitted initd (item :: rest) = false) ∨
    (∃ initd', firstBreach initd (item :: rest) = (firstBreach initd' rest).map (fun x => (x.1 + 1, x.2)) ∧
      admitted initd (item :: rest) = admitted initd' rest) := by
  rcases item with ⟨_ | p | p, rd⟩
  · exact .inr ⟨initd, rfl, rfl⟩
  · cases hd : decodeCommand p.cmd with
    | error e => exact .inl ⟨.reservedCommand, by simp [firstBreach, hd], by simp [admitted, hd]⟩
    | ok i =>
      cases i with
      | init tag =>
        cases initd with
        | false => exact .inr ⟨true, by simp [firstBreach, hd], by simp [admitted, hd]⟩
        | true => exact .inl ⟨.alreadyInitialised, by simp [firstBreach, hd], by simp [admitted, hd]⟩
      | decode =>
        cases initd with
        | false => exact .inl ⟨.notInitialised, by simp [firstBreach, hd], by simp [admitted, hd]⟩
        | true => exact .inr ⟨true, by simp [firstBreach, hd], by simp [admitted, hd]⟩
      | encode => exact .inr ⟨initd, by simp [firstBreach, hd], by simp [admitted, hd]⟩
  · exact .inl ⟨.concurrentCommand, rfl, rfl⟩

/-- A script is admitted when it has no first breach. -/
theorem admitted_iff_firstBreach_eq_none {initd : Bool} {l : List HostStep} :
    admitted initd l = true ↔ firstBreach initd l = none := by
  induction l generalizing initd with
  | nil => simp [admitted, firstBreach]
  | cons item rest ih =>
    rcases duties_cons initd item rest with ⟨q, hbreach, hbroken⟩ | ⟨initd', hbreach, hadmitted⟩
    · simp [hbreach, hbroken]
    · rw [hbreach, hadmitted, ih, Option.map_eq_none_iff]

/-- A breach is an item of the script. -/
theorem lt_length_of_firstBreach {initd : Bool} {l : List HostStep} {n : Nat} {r : RefusalReason}
    (h : firstBreach initd l = some (n, r)) : n < l.length := by
  induction l generalizing initd n with
  | nil => nomatch h
  | cons item rest ih =>
    rw [List.length_cons]
    rcases duties_cons initd item rest with ⟨q, hbreach, -⟩ | ⟨initd', hbreach, -⟩
    · obtain ⟨rfl, -⟩ : 0 = n ∧ q = r := by simpa [hbreach] using h
      exact Nat.succ_pos _
    · rw [hbreach, Option.map_eq_some_iff] at h
      obtain ⟨⟨m, r'⟩, hrest, ⟨⟩⟩ := h
      exact Nat.succ_lt_succ (ih hrest)

/-- A refused step met the first breach. -/
theorem firstBreach_of_step_refused {s : State} {q : RefusalReason} (h : step s = .refused (.reason q)) :
    firstBreach s.initd s.inbox = some (0, q) := by
  rcases step_refused_cases h with ⟨p, rd, rest, hi, ⟨⟩⟩ | ⟨p, rd, rest, hi, ⟨e, hd, ⟨⟩⟩ | ⟨tag, hd, hs, ⟨⟩⟩ | ⟨hd, hs, ⟨⟩⟩⟩
  · simp [hi, firstBreach]
  · simp [hi, firstBreach, hd]
  · simp [hi, firstBreach, hd, hs]
  · simp [hi, firstBreach, hd, hs]

/-- A step that answers kept the duties, and brings the first breach one item nearer. -/
theorem firstBreach_of_step_next {s t : State} (h : step s = .next t) :
    firstBreach s.initd s.inbox = (firstBreach t.initd t.inbox).map fun x => (x.1 + 1, x.2) := by
  rcases step_next_cases h with ⟨hi, rfl⟩ | ⟨rd, rest, hi, rfl⟩ | ⟨p, rd, rest, i, hi, hd, hexec⟩
  · rw [hi]; rfl
  · rw [hi]; rfl
  · cases i with
    | init tag =>
      obtain ⟨hs, rfl⟩ := execInit_next.1 hexec
      have hs : s.initd = false := hs
      simp [hi, firstBreach, hd, hs]
    | decode =>
      obtain ⟨hs, -⟩ := execDecode_next.1 hexec
      obtain ⟨w, st, rfl⟩ := exists_setTemp_respond_of_exec_decode hexec
      have hs : s.initd = true := hs
      simp [hi, firstBreach, hd, hs]
    | encode => 
      rw [exec_encode_eq] at hexec
      cases hexec
      simp [hi, firstBreach, hd]

/-- A run goes on up to the first breach and is refused there, for its reason. -/
theorem run_of_firstBreach {n : Nat} {s : State} {r : RefusalReason} (h : firstBreach s.initd s.inbox = some (n, r)) :
    (∀ k, k ≤ n → ∃ t, run k s = .next t) ∧ (∀ k, n < k → run k s = .refused r) := by
  induction n generalizing s with
  | zero =>
    rcases step_total s with ⟨t, hs⟩ | ⟨q, hs⟩
    · rw [firstBreach_of_step_next hs] at h
      simp at h
    · obtain rfl : q = r := by simpa [firstBreach_of_step_refused hs] using h
      refine ⟨fun k hk => ⟨s, by rw [Nat.le_zero.1 hk, run_zero]⟩, fun k hk => ?_⟩
      obtain ⟨j, rfl⟩ := Nat.exists_eq_succ_of_ne_zero hk.ne'
      exact run_succ_refused hs
  | succ n ih =>
    rcases step_total s with ⟨t, hs⟩ | ⟨q, hs⟩
    · have hnearer : firstBreach t.initd t.inbox = some (n, r) := by
        simpa [firstBreach_of_step_next hs, Prod.ext_iff] using h
      obtain ⟨hruns, hrefused⟩ := ih hnearer
      refine ⟨fun k hk => ?_, fun k hk => ?_⟩
      · cases k with
        | zero => exact ⟨s, run_zero s⟩
        | succ k => exact run_succ_next hs ▸ hruns k (Nat.le_of_succ_le_succ hk)
      · cases k with
        | zero => exact absurd hk (Nat.not_lt_zero _)
        | succ k => exact run_succ_next hs ▸ hrefused k (Nat.lt_of_succ_lt_succ hk)
    · rw [firstBreach_of_step_refused hs] at h
      simp at h

/-- A run without a breach goes on as long as one likes. -/
theorem exists_run_of_no_breach {s : State} (h : firstBreach s.initd s.inbox = none) (k : Nat) : ∃ t, run k s = .next t := by
  induction k generalizing s with
  | zero => exact ⟨s, rfl⟩
  | succ k ih =>
    rcases step_total s with ⟨t, hs⟩ | ⟨q, hs⟩
    · rw [run_succ_next hs]
      exact ih (Option.map_eq_none_iff.1 ((firstBreach_of_step_next hs).symm.trans h))
    · nomatch (firstBreach_of_step_refused hs).symm.trans h

/-- Settles O35: a script that is not admitted has a first breach, and the run meets it where it stands. -/
theorem breachedScriptIsRefusedAtItsFirstBreach : Obligations.BreachedScriptIsRefusedAtItsFirstBreach := by
  refine fun s => ⟨fun hbroken => ?_, fun n r hbreach => ⟨?_, run_of_firstBreach hbreach⟩⟩
  · have hne : firstBreach s.initd s.inbox ≠ none := mt admitted_iff_firstBreach_eq_none.2 (Bool.eq_false_iff.1 hbroken)
    obtain ⟨⟨n, r⟩, hbreach⟩ := Option.ne_none_iff_exists'.1 hne
    exact ⟨n, r, hbreach, lt_length_of_firstBreach hbreach⟩
  · rw [← Bool.not_eq_true, admitted_iff_firstBreach_eq_none, hbreach]
    exact Option.some_ne_none _

/-- Settles O40: a run over the whole script would meet a breach, and without one it goes on to the script's end. -/
theorem scriptCompletesExactlyWhenAdmitted : Obligations.ScriptCompletesExactlyWhenAdmitted := by
  intro s
  rw [admitted_iff_firstBreach_eq_none]
  constructor
  · rintro ⟨t, hrun, -⟩
    by_contra hne
    obtain ⟨⟨n, r⟩, hbreach⟩ := Option.ne_none_iff_exists'.1 hne
    obtain ⟨-, hrefused⟩ := run_of_firstBreach hbreach
    nomatch (hrefused _ (lt_length_of_firstBreach hbreach)).symm.trans hrun
  · intro hnone
    obtain ⟨t, hrun⟩ := exists_run_of_no_breach hnone s.inbox.length
    exact ⟨t, hrun, (run_inbox hrun).trans List.drop_length⟩

end Sys2Proof.Machine
end

section
/-! SUPPORT. The refusal reasons (spec/60_exceptions.md R148; log 6, log 9): each of the four in the terms of the command byte. -/

namespace Sys2Proof.Machine

/-- A byte is rejected by the decoder exactly when it selects no row of the opcode table (R66). -/
theorem decodeCommand_error_iff (b : Byte) :
    (∃ e, decodeCommand b = .error e) ↔ ∀ row ∈ opcodeTable, row.selects b = false := by
  cases hd : decodeCommand b with
  | error e =>
    refine iff_of_true ⟨e, rfl⟩ fun row hrow => Bool.eq_false_iff.2 fun hselects => ?_
    obtain ⟨i, hi, -⟩ := (selects_iff_decodeCommand hrow b).1 hselects
    nomatch hd.symm.trans hi
  | ok i =>
    obtain ⟨-, hrow, -⟩ := encodesInItsRow i
    refine iff_of_false (fun ⟨e, he⟩ => nomatch he) fun hnone => ?_
    exact absurd ((selects_iff_decodeCommand hrow b).2 ⟨i, hd, rfl⟩) (Bool.eq_false_iff.1 (hnone _ hrow))

theorem decodeCommand_decode_iff (b : Byte) : decodeCommand b = .ok .decode ↔ b = 0x02#8 := decodeCommand_ok_iff

/-- INIT's mask and match find the INIT bytes. -/
theorem decodeCommand_init_iff (b : Byte) : (∃ tag, decodeCommand b = .ok (.init tag)) ↔ b &&& 0xE7#8 = 0x01#8 := by
  constructor
  · rintro ⟨tag, hd⟩
    obtain ⟨-, hrow, -⟩ := encodesInItsRow (.init tag)
    exact beq_iff_eq.1 ((selects_iff_decodeCommand hrow b).2 ⟨_, hd, rfl⟩)
  · exact fun hmasked => ⟨_, decodeCommand_ok_iff.2 (eq_encode_init_of_masked hmasked)⟩

/-- A step is refused for a reason exactly under the reason's condition, in the decoder's terms. -/
theorem step_refused_iff (s : State) (q : RefusalReason) : step s = .refused (.reason q) ↔
    (q = .concurrentCommand ∧ ∃ p rd rest, s.inbox = ⟨.commandEarly p, rd⟩ :: rest) ∨
    (∃ p rd rest, s.inbox = ⟨.command p, rd⟩ :: rest ∧
      ((q = .reservedCommand ∧ ∃ e, decodeCommand p.cmd = .error e) ∨
       (q = .notInitialised ∧ decodeCommand p.cmd = .ok .decode ∧ s.initd = false) ∨
       (q = .alreadyInitialised ∧ (∃ tag, decodeCommand p.cmd = .ok (.init tag)) ∧ s.initd = true))) := by
  constructor
  · intro h
    rcases step_refused_cases h with ⟨p, rd, rest, hi, ⟨⟩⟩ |
      ⟨p, rd, rest, hi, ⟨e, hd, ⟨⟩⟩ | ⟨tag, hd, hs, ⟨⟩⟩ | ⟨hd, hs, ⟨⟩⟩⟩
    · exact .inl ⟨rfl, p, rd, rest, hi⟩
    · exact .inr ⟨p, rd, rest, hi, .inl ⟨rfl, e, hd⟩⟩
    · exact .inr ⟨p, rd, rest, hi, .inr (.inr ⟨rfl, ⟨tag, hd⟩, hs⟩)⟩
    · exact .inr ⟨p, rd, rest, hi, .inr (.inl ⟨rfl, hd, hs⟩)⟩
  · rintro (⟨rfl, p, rd, rest, hi⟩ | ⟨p, rd, rest, hi, ⟨rfl, e, hd⟩ | ⟨rfl, hd, hs⟩ | ⟨rfl, ⟨tag, hd⟩, hs⟩⟩)
    · exact step_of_commandEarly hi
    · exact step_of_decodeCommand_error hi hd
    · exact (step_of_decodeCommand_ok hi hd).trans (decodeBeforeInitIsRefused _ hs)
    · exact (step_of_decodeCommand_ok hi hd).trans (exec_init_of_initialised tag hs)

/-- Settles O36: the interface shows the block's own machine, and the byte's conditions are the decoder's. -/
theorem refusalReasonsAreExactlyFour : Obligations.RefusalReasonsAreExactlyFour := by
  refine ⟨fun q => by cases q <;> simp, exec_eq_present, fun s => ⟨step_eq_present s, fun r h => ?_⟩, core_run_eq_present,
    fun s q => ?_⟩
  · obtain ⟨q, hq, -⟩ := present_refused.1 ((step_eq_present s).symm.trans h)
    exact ⟨q, hq⟩
  · simp only [step_refused_iff, decodeCommand_error_iff, decodeCommand_init_iff, decodeCommand_decode_iff]

end Sys2Proof.Machine
end

section
/-! SUPPORT. The value of `RES` before INIT (spec/70_reset_and_hazards.md R171): no command reads it, and INIT overwrites it, so
replacing it commutes with a step until INIT has run. -/

namespace Sys2Proof.Machine

/-- An outcome whose next state has its tag replaced as long as no INIT has run. -/
def withTagBeforeInit (r : Tag) : BlockOutcome → BlockOutcome
  | .next t => .next (if t.initd then t else t.setRes r)
  | .fault q => .fault q
  | .refused q => .refused q

theorem withTagBeforeInit_of_initialised (r : Tag) {t : State} (ht : t.initd = true) :
    withTagBeforeInit r (.next t) = .next t := by
  rw [withTagBeforeInit, if_pos ht]

theorem withTagBeforeInit_of_uninitialised (r : Tag) {t : State} (ht : t.initd = false) :
    withTagBeforeInit r (.next t) = .next (t.setRes r) := by
  rw [withTagBeforeInit, if_neg (Bool.eq_false_iff.1 ht)]

/-- The block's command and the interface's command answer the same next states. -/
theorem blockExec_next {i : Instr} {s t : State} : blockExec i s = .next t ↔ exec i s = .next t := by
  rw [exec_eq_present, present_next]

/-- The block's command and the interface's command are refused for the same reasons. -/
theorem blockExec_refused {i : Instr} {s : State} {q : RefusalReason} :
    blockExec i s = .refused q ↔ exec i s = .refused (.reason q) := by
  rw [exec_eq_present, present_refused]
  simp

/-- Before INIT a command does not read the tag: INIT overwrites it, DECODE is refused, and ENCODE uses its operand alone. -/
theorem blockExec_setRes (i : Instr) {s : State} (hs : s.initd = false) (r : Tag) :
    blockExec i (s.setRes r) = withTagBeforeInit r (blockExec i s) := by
  cases i with
  | init tag =>
    rw [blockExec_next.2 (exec_init_of_uninitialised tag hs),
      blockExec_next.2 (exec_init_of_uninitialised tag (s := s.setRes r) hs), withTagBeforeInit_of_initialised r rfl]
    rfl
  | decode =>
    rw [blockExec_refused.2 (decodeBeforeInitIsRefused s hs),
      blockExec_refused.2 (decodeBeforeInitIsRefused (s.setRes r) hs)]
    rfl
  | encode =>
    rw [blockExec_next.2 (exec_encode_eq s), blockExec_next.2 (exec_encode_eq (s.setRes r))]
    exact (withTagBeforeInit_of_uninitialised r (t := { s with resp := some (encodeResponse (dinUnits s.inp)) }) hs).symm

theorem blockStep_of_decodeCommand_ok {s : State} {p : InPorts} {rd : Bool} {rest : List HostStep} {i : Instr}
    (hinbox : s.inbox = ⟨.command p, rd⟩ :: rest) (hi : decodeCommand p.cmd = .ok i) :
    blockStep s = blockExec i ((s.beginStep rd rest).setInp p) := by
  simp only [blockStep, fetch, hinbox, decodePresented, hi]

/-- Before INIT a step does not read the tag. -/
theorem blockStep_setRes {s : State} (hs : s.initd = false) (r : Tag) :
    blockStep (s.setRes r) = withTagBeforeInit r (blockStep s) := by
  rcases fetch_cases s with ⟨hi, -⟩ | ⟨rd, rest, hi, -⟩ | ⟨p, rd, rest, hi, -⟩ | ⟨p, rd, rest, e, hi, hd, -⟩ |
    ⟨p, rd, rest, i, hi, hd, -⟩
  · rw [blockStep_next.2 (step_of_empty hi), blockStep_next.2 (step_of_empty (s := s.setRes r) hi)]
    exact (withTagBeforeInit_of_uninitialised r (t := s.beginStep false []) hs).symm
  · rw [blockStep_next.2 (step_of_wait hi), blockStep_next.2 (step_of_wait (s := s.setRes r) hi)]
    exact (withTagBeforeInit_of_uninitialised r (t := s.beginStep rd rest) hs).symm
  · rw [blockStep_refused.2 (step_of_commandEarly hi), blockStep_refused.2 (step_of_commandEarly (s := s.setRes r) hi)]
    rfl
  · rw [blockStep_refused.2 (step_of_decodeCommand_error hi hd),
      blockStep_refused.2 (step_of_decodeCommand_error (s := s.setRes r) hi hd)]
    rfl
  · rw [blockStep_of_decodeCommand_ok hi hd, blockStep_of_decodeCommand_ok (s := s.setRes r) hi hd]
    exact blockExec_setRes i (s := (s.beginStep rd rest).setInp p) hs r

/-- An initialised block stays so along a run, so its outcome has no tag to replace. -/
theorem withTagBeforeInit_run (r : Tag) {t : State} (ht : t.initd = true) (k : Nat) :
    withTagBeforeInit r (run k t) = run k t := by
  cases hrun : run k t with
  | next u =>
    obtain ⟨hu, -⟩ := run_configuration_of_initialised k t u hrun ht
    exact withTagBeforeInit_of_initialised r hu
  | fault q => rfl
  | refused q => rfl

/-- A run from before INIT does not read the tag. -/
theorem run_setRes (k : Nat) {s : State} (hs : s.initd = false) (r : Tag) :
    run k (s.setRes r) = withTagBeforeInit r (run k s) := by
  induction k generalizing s with
  | zero => exact (withTagBeforeInit_of_uninitialised r hs).symm
  | succ k ih =>
    have hset := blockStep_setRes hs r
    rcases step_total s with ⟨t, hstep⟩ | ⟨q, hstep⟩
    · rw [blockStep_next.2 hstep] at hset
      rw [run_succ_next hstep]
      cases ht : t.initd with
      | true =>
        rw [withTagBeforeInit_of_initialised r ht] at hset
        rw [run_succ_next (blockStep_next.1 hset), withTagBeforeInit_run r ht]
      | false =>
        rw [withTagBeforeInit_of_uninitialised r ht] at hset
        rw [run_succ_next (blockStep_next.1 hset), ih ht]
    · rw [blockStep_refused.2 hstep] at hset
      rw [run_succ_refused hstep, run_succ_refused (blockStep_refused.1 hset)]
      rfl

/-- Settles O39: the outcome with the tag replaced is known, by whether INIT has run. -/
theorem tagBeforeInitIsUnobservable : Obligations.TagBeforeInitIsUnobservable := by
  intro k s r hs
  have hset : run k { s with res := r } = withTagBeforeInit r (run k s) := run_setRes k hs r
  refine ⟨fun t hrun => ?_, fun q hrun => hset.trans (congrArg (withTagBeforeInit r) hrun)⟩
  rw [hset, hrun]
  rcases Bool.eq_false_or_eq_true t.initd with ht | ht
  · exact .inl ⟨ht, withTagBeforeInit_of_initialised r ht⟩
  · exact .inr ⟨ht, withTagBeforeInit_of_uninitialised r ht⟩

end Sys2Proof.Machine
end
